-- ==== Sys2Proof/Word.lean ====
section
/-! DEFINITION. The word types of the core (00_scope.md R7, R9, R10): 64-bit words, 8-bit bytes and
the 4-bit fields of an instruction. Arithmetic on words is BitVec arithmetic, so it is modulo 2^64. -/

namespace Sys2Proof

/-- A word: 64 bits, bit 63 the sign bit (R7, R9). Addresses and PCs are words (R38, R75). -/
abbrev Word := BitVec 64

/-- One byte of memory or of an instruction. -/
abbrev Byte := BitVec 8

/-- A 4-bit field of an instruction: icode, ifun, rA or rB (R100, R102). -/
abbrev Nibble := BitVec 4

end Sys2Proof
end

