-- ==== Sys2Proof/Syntax.lean ====
section
/-! DEFINITION. The syntax of instructions: one constructor per row of spec/opcode_table.json. Register
fields are the raw nibbles of the register byte, because which register (or RNONE) a nibble names is a
parameter (10_state.md R34); unused nibbles and unread ifun fields are operands too, because Fetch stages
them into D (30_encoding.md R107, R108; log 11). -/

namespace Sys2Proof

/-- The instruction codes, the high nibble of the first byte (00_scope.md R14). The last four are not
instructions (30_encoding.md R110). The sixteen names are the sixteen 4-bit values (log 10). -/
inductive Icode where
  | halt | nop | rrmovq | irmovq | rmmovq | mrmovq | opq | jxx | call | ret | pushq | popq
  | codeC | codeD | codeE | codeF
  deriving DecidableEq, Repr

/-- The instructions, in the order of the opcode map (30_encoding.md R114). `ifun`, `rA`, `rB` are raw
4-bit fields; `V`, `D` and `Dest` are the 8-byte constant. -/
inductive Instr where
  /-- `halt`, any ifun (R301). -/
  | halt (ifun : Nibble)
  /-- `nop`, any ifun (R302). -/
  | nop (ifun : Nibble)
  /-- `rrmovq rA, rB` (R304). -/
  | rrmovq (rA rB : Nibble)
  /-- `cmovle rA, rB` (R305). -/
  | cmovle (rA rB : Nibble)
  /-- `cmovl rA, rB` (R306). -/
  | cmovl (rA rB : Nibble)
  /-- `cmove rA, rB` (R307). -/
  | cmove (rA rB : Nibble)
  /-- `cmovne rA, rB` (R308). -/
  | cmovne (rA rB : Nibble)
  /-- `cmovge rA, rB` (R309). -/
  | cmovge (rA rB : Nibble)
  /-- `cmovg rA, rB` (R310). -/
  | cmovg (rA rB : Nibble)
  /-- The reserved conditional move with ifun 7 (R311). -/
  | reservedCmov7 (rA rB : Nibble)
  /-- The reserved conditional moves with ifun 8 to F (R311). -/
  | reservedCmov8F (ifun rA rB : Nibble)
  /-- `irmovq V, rB`, any ifun, rA unused (R312). -/
  | irmovq (ifun rA rB : Nibble) (V : Word)
  /-- `rmmovq rA, D(rB)`, any ifun (R313). -/
  | rmmovq (ifun rA rB : Nibble) (D : Word)
  /-- `mrmovq D(rB), rA`, any ifun (R314). -/
  | mrmovq (ifun rA rB : Nibble) (D : Word)
  /-- `addq rA, rB` (R341). -/
  | addq (rA rB : Nibble)
  /-- `subq rA, rB` (R342). -/
  | subq (rA rB : Nibble)
  /-- `andq rA, rB` (R343). -/
  | andq (rA rB : Nibble)
  /-- `xorq rA, rB` (R344). -/
  | xorq (rA rB : Nibble)
  /-- The reserved ALU operations with ifun 4 to 7 (R345). -/
  | reservedOp47 (ifun rA rB : Nibble)
  /-- The reserved ALU operations with ifun 8 to F (R345). -/
  | reservedOp8F (ifun rA rB : Nibble)
  /-- `jmp Dest` (R371). -/
  | jmp (Dest : Word)
  /-- `jle Dest` (R372). -/
  | jle (Dest : Word)
  /-- `jl Dest` (R373). -/
  | jl (Dest : Word)
  /-- `je Dest` (R374). -/
  | je (Dest : Word)
  /-- `jne Dest` (R375). -/
  | jne (Dest : Word)
  /-- `jge Dest` (R376). -/
  | jge (Dest : Word)
  /-- `jg Dest` (R377). -/
  | jg (Dest : Word)
  /-- The reserved jump with ifun 7 (R378). -/
  | reservedJump7 (Dest : Word)
  /-- The reserved jumps with ifun 8 to F (R378). -/
  | reservedJump8F (ifun : Nibble) (Dest : Word)
  /-- `call Dest`, any ifun (R379). -/
  | call (ifun : Nibble) (Dest : Word)
  /-- `ret`, any ifun (R380). -/
  | ret (ifun : Nibble)
  /-- `pushq rA`, any ifun, rB unused (R410). -/
  | pushq (ifun rA rB : Nibble)
  /-- `popq rA`, any ifun, rB unused (R411). -/
  | popq (ifun rA rB : Nibble)
  /-- A first byte 0xC0 to 0xFF: not an instruction, status INS (R110, R303). -/
  | nonInstruction (icode ifun : Nibble)
  deriving DecidableEq, Repr

/-- The row of spec/opcode_table.json a constructor stands for, by its mnemonic. -/
def Instr.mnemonic : Instr → String
  | .halt _ => "halt"
  | .nop _ => "nop"
  | .rrmovq _ _ => "rrmovq"
  | .cmovle _ _ => "cmovle"
  | .cmovl _ _ => "cmovl"
  | .cmove _ _ => "cmove"
  | .cmovne _ _ => "cmovne"
  | .cmovge _ _ => "cmovge"
  | .cmovg _ _ => "cmovg"
  | .reservedCmov7 _ _ => "reserved_cmov__ifun_7"
  | .reservedCmov8F _ _ _ => "reserved_cmov__ifun_8..F"
  | .irmovq _ _ _ _ => "irmovq"
  | .rmmovq _ _ _ _ => "rmmovq"
  | .mrmovq _ _ _ _ => "mrmovq"
  | .addq _ _ => "addq"
  | .subq _ _ => "subq"
  | .andq _ _ => "andq"
  | .xorq _ _ => "xorq"
  | .reservedOp47 _ _ _ => "reserved_OPq__ifun_4..7"
  | .reservedOp8F _ _ _ => "reserved_OPq__ifun_8..F"
  | .jmp _ => "jmp"
  | .jle _ => "jle"
  | .jl _ => "jl"
  | .je _ => "je"
  | .jne _ => "jne"
  | .jge _ => "jge"
  | .jg _ => "jg"
  | .reservedJump7 _ => "reserved_jXX__ifun_7"
  | .reservedJump8F _ _ => "reserved_jXX__ifun_8..F"
  | .call _ _ => "call"
  | .ret _ => "ret"
  | .pushq _ _ _ => "pushq"
  | .popq _ _ _ => "popq"
  | .nonInstruction _ _ => "non-instruction__icode_C..F"

/-- An instruction's length in bytes: its format F1, F2, F9 or F10 (30_encoding.md R103, R113). -/
def Instr.length : Instr → Nat
  | .halt _ | .nop _ | .ret _ | .nonInstruction _ _ => 1
  | .rrmovq _ _ | .cmovle _ _ | .cmovl _ _ | .cmove _ _ | .cmovne _ _ | .cmovge _ _ | .cmovg _ _
  | .reservedCmov7 _ _ | .reservedCmov8F _ _ _
  | .addq _ _ | .subq _ _ | .andq _ _ | .xorq _ _ | .reservedOp47 _ _ _ | .reservedOp8F _ _ _
  | .pushq _ _ _ | .popq _ _ _ => 2
  | .jmp _ | .jle _ | .jl _ | .je _ | .jne _ | .jge _ | .jg _
  | .reservedJump7 _ | .reservedJump8F _ _ | .call _ _ => 9
  | .irmovq _ _ _ _ | .rmmovq _ _ _ _ | .mrmovq _ _ _ _ => 10

end Sys2Proof
end

