-- ==== Sys2Proof/WellFormed.lean ====
section
/-! DEFINITION. Which terms of `Instr` are instructions. Only the rows of the opcode table that stand for
a range of first bytes can be ill formed: their stored field has to lie in the row's range. -/

namespace Sys2Proof

/-- A term is well formed when the field its row leaves open lies in the row's range
(spec/opcode_table.json, match and mask; 30_encoding.md R110, R111). -/
def Instr.wf : Instr → Bool
  | .reservedCmov8F ifun _ _ => 8 ≤ ifun.toNat
  | .reservedOp47 ifun _ _ => 4 ≤ ifun.toNat && ifun.toNat ≤ 7
  | .reservedOp8F ifun _ _ => 8 ≤ ifun.toNat
  | .reservedJump8F ifun _ => 8 ≤ ifun.toNat
  | .nonInstruction icode _ => 12 ≤ icode.toNat
  | .halt _ | .nop _ | .rrmovq _ _ | .cmovle _ _ | .cmovl _ _ | .cmove _ _ | .cmovne _ _
  | .cmovge _ _ | .cmovg _ _ | .reservedCmov7 _ _ | .irmovq _ _ _ _ | .rmmovq _ _ _ _
  | .mrmovq _ _ _ _ | .addq _ _ | .subq _ _ | .andq _ _ | .xorq _ _ | .jmp _ | .jle _ | .jl _
  | .je _ | .jne _ | .jge _ | .jg _ | .reservedJump7 _ | .call _ _ | .ret _ | .pushq _ _ _
  | .popq _ _ _ => true

end Sys2Proof
end

