-- ==== Sys2Proof/Decode.lean ====
section
/-! DEFINITION. From bytes to instructions and back (30_encoding.md): the fields of a byte, the
little-endian constant, the opcode map, a total decoder that rejects by name, the encoder written from
the same tables, and the rows of the opcode table as data. -/

namespace Sys2Proof

/-! ### Fields -/

/-- `b[7:4]`: the icode of an opcode byte, the rA of a register byte (R100, R102). -/
def hiNibble (b : Byte) : Nibble := b.extractLsb' 4 4

/-- `b[3:0]`: the ifun of an opcode byte, the rB of a register byte (R100, R102). -/
def loNibble (b : Byte) : Nibble := b.extractLsb' 0 4

/-- The byte `hi : lo` (R9, R103). -/
def byteOfNibbles (hi lo : Nibble) : Byte := hi ++ lo

/-- `c7 : c6 : ... : c0`, the word whose byte k is ck: little-endian (R70, R105). -/
def wordOfBytes (c0 c1 c2 c3 c4 c5 c6 c7 : Byte) : Word :=
  c7 ++ c6 ++ c5 ++ c4 ++ c3 ++ c2 ++ c1 ++ c0

/-- Byte k of a word, `v[8k+7:8k]` (R9). -/
def byteOfWord (v : Word) (k : Nat) : Byte := v.extractLsb' (8 * k) 8

/-- The eight bytes of a word, in address order (R70). -/
def bytesOfWord (v : Word) : List Byte :=
  [byteOfWord v 0, byteOfWord v 1, byteOfWord v 2, byteOfWord v 3,
    byteOfWord v 4, byteOfWord v 5, byteOfWord v 6, byteOfWord v 7]

/-- The instruction code a 4-bit value stands for (R14). -/
def Icode.ofNibble (n : Nibble) : Icode :=
  match n with
  | 0x0#4 => .halt
  | 0x1#4 => .nop
  | 0x2#4 => .rrmovq
  | 0x3#4 => .irmovq
  | 0x4#4 => .rmmovq
  | 0x5#4 => .mrmovq
  | 0x6#4 => .opq
  | 0x7#4 => .jxx
  | 0x8#4 => .call
  | 0x9#4 => .ret
  | 0xA#4 => .pushq
  | 0xB#4 => .popq
  | 0xC#4 => .codeC
  | 0xD#4 => .codeD
  | 0xE#4 => .codeE
  | _ => .codeF

/-- The 4-bit value of an instruction code (R14). -/
def Icode.toNibble : Icode → Nibble
  | .halt => 0x0
  | .nop => 0x1
  | .rrmovq => 0x2
  | .irmovq => 0x3
  | .rmmovq => 0x4
  | .mrmovq => 0x5
  | .opq => 0x6
  | .jxx => 0x7
  | .call => 0x8
  | .ret => 0x9
  | .pushq => 0xA
  | .popq => 0xB
  | .codeC => 0xC
  | .codeD => 0xD
  | .codeE => 0xE
  | .codeF => 0xF

/-! ### The decoder -/

/-- Why a list of bytes is not an instruction: it ends too early. No value of any byte is refused
(93_implementation_defined.md section 2). -/
inductive DecodeError where
  /-- There is no opcode byte. -/
  | noOpcodeByte
  /-- The register byte is missing. -/
  | noRegisterByte
  /-- The 8-byte constant is missing or cut short. -/
  | noConstant
  deriving DecidableEq, Repr

/-- A decoder's answer: the instruction and the bytes after it, or why there is none. -/
abbrev Decoded := Except DecodeError (Instr × List Byte)

/-- RRMOVQ by ifun (R109, R111, R114). -/
def moveOfIfun (ifun rA rB : Nibble) : Instr :=
  match ifun with
  | 0x0#4 => .rrmovq rA rB
  | 0x1#4 => .cmovle rA rB
  | 0x2#4 => .cmovl rA rB
  | 0x3#4 => .cmove rA rB
  | 0x4#4 => .cmovne rA rB
  | 0x5#4 => .cmovge rA rB
  | 0x6#4 => .cmovg rA rB
  | 0x7#4 => .reservedCmov7 rA rB
  | f => .reservedCmov8F f rA rB

/-- OPQ by ifun (R109, R111, R114). -/
def opOfIfun (ifun rA rB : Nibble) : Instr :=
  match ifun with
  | 0x0#4 => .addq rA rB
  | 0x1#4 => .subq rA rB
  | 0x2#4 => .andq rA rB
  | 0x3#4 => .xorq rA rB
  | f => if f.toNat < 8 then .reservedOp47 f rA rB else .reservedOp8F f rA rB

/-- JXX by ifun (R109, R111, R114). -/
def jumpOfIfun (ifun : Nibble) (Dest : Word) : Instr :=
  match ifun with
  | 0x0#4 => .jmp Dest
  | 0x1#4 => .jle Dest
  | 0x2#4 => .jl Dest
  | 0x3#4 => .je Dest
  | 0x4#4 => .jne Dest
  | 0x5#4 => .jge Dest
  | 0x6#4 => .jg Dest
  | 0x7#4 => .reservedJump7 Dest
  | f => .reservedJump8F f Dest

/-- Read the register byte and go on with its two nibbles (R102). -/
def withRegisterByte (k : Nibble → Nibble → List Byte → Decoded) : List Byte → Decoded
  | [] => .error .noRegisterByte
  | b :: rest => k (hiNibble b) (loNibble b) rest

/-- Read the 8-byte little-endian constant and go on with it (R105). -/
def withConstant (k : Word → List Byte → Decoded) : List Byte → Decoded
  | c0 :: c1 :: c2 :: c3 :: c4 :: c5 :: c6 :: c7 :: rest =>
    k (wordOfBytes c0 c1 c2 c3 c4 c5 c6 c7) rest
  | _ => .error .noConstant

/-- Format F2: opcode and register byte (R103). -/
def decodeF2 (mk : Nibble → Nibble → Instr) : List Byte → Decoded :=
  withRegisterByte fun rA rB rest => .ok (mk rA rB, rest)

/-- Format F9: opcode and constant (R103). -/
def decodeF9 (mk : Word → Instr) : List Byte → Decoded :=
  withConstant fun c rest => .ok (mk c, rest)

/-- Format F10: opcode, register byte and constant (R103). -/
def decodeF10 (mk : Nibble → Nibble → Word → Instr) : List Byte → Decoded :=
  withRegisterByte fun rA rB => withConstant fun c rest => .ok (mk rA rB c, rest)

/-- The instruction that begins a list of bytes (R100, R101, R114). -/
def decode : List Byte → Decoded
  | [] => .error .noOpcodeByte
  | b :: bytes =>
    let ifun := loNibble b
    match Icode.ofNibble (hiNibble b) with
    | .halt => .ok (.halt ifun, bytes)
    | .nop => .ok (.nop ifun, bytes)
    | .rrmovq => decodeF2 (moveOfIfun ifun) bytes
    | .irmovq => decodeF10 (.irmovq ifun) bytes
    | .rmmovq => decodeF10 (.rmmovq ifun) bytes
    | .mrmovq => decodeF10 (.mrmovq ifun) bytes
    | .opq => decodeF2 (opOfIfun ifun) bytes
    | .jxx => decodeF9 (jumpOfIfun ifun) bytes
    | .call => decodeF9 (.call ifun) bytes
    | .ret => .ok (.ret ifun, bytes)
    | .pushq => decodeF2 (.pushq ifun) bytes
    | .popq => decodeF2 (.popq ifun) bytes
    | .codeC | .codeD | .codeE | .codeF => .ok (.nonInstruction (hiNibble b) ifun, bytes)

/-! ### The encoder -/

/-- The bytes of format F2 (R103). -/
def encodeF2 (icode : Icode) (ifun rA rB : Nibble) : List Byte :=
  [byteOfNibbles icode.toNibble ifun, byteOfNibbles rA rB]

/-- The bytes of format F9 (R103). -/
def encodeF9 (icode : Icode) (ifun : Nibble) (c : Word) : List Byte :=
  byteOfNibbles icode.toNibble ifun :: bytesOfWord c

/-- The bytes of format F10 (R103). -/
def encodeF10 (icode : Icode) (ifun rA rB : Nibble) (c : Word) : List Byte :=
  byteOfNibbles icode.toNibble ifun :: byteOfNibbles rA rB :: bytesOfWord c

/-- The bytes of an instruction (R103, R109, R114). -/
def encode : Instr → List Byte
  | .halt ifun => [byteOfNibbles 0x0 ifun]
  | .nop ifun => [byteOfNibbles 0x1 ifun]
  | .rrmovq rA rB => encodeF2 .rrmovq 0x0 rA rB
  | .cmovle rA rB => encodeF2 .rrmovq 0x1 rA rB
  | .cmovl rA rB => encodeF2 .rrmovq 0x2 rA rB
  | .cmove rA rB => encodeF2 .rrmovq 0x3 rA rB
  | .cmovne rA rB => encodeF2 .rrmovq 0x4 rA rB
  | .cmovge rA rB => encodeF2 .rrmovq 0x5 rA rB
  | .cmovg rA rB => encodeF2 .rrmovq 0x6 rA rB
  | .reservedCmov7 rA rB => encodeF2 .rrmovq 0x7 rA rB
  | .reservedCmov8F ifun rA rB => encodeF2 .rrmovq ifun rA rB
  | .irmovq ifun rA rB V => encodeF10 .irmovq ifun rA rB V
  | .rmmovq ifun rA rB D => encodeF10 .rmmovq ifun rA rB D
  | .mrmovq ifun rA rB D => encodeF10 .mrmovq ifun rA rB D
  | .addq rA rB => encodeF2 .opq 0x0 rA rB
  | .subq rA rB => encodeF2 .opq 0x1 rA rB
  | .andq rA rB => encodeF2 .opq 0x2 rA rB
  | .xorq rA rB => encodeF2 .opq 0x3 rA rB
  | .reservedOp47 ifun rA rB => encodeF2 .opq ifun rA rB
  | .reservedOp8F ifun rA rB => encodeF2 .opq ifun rA rB
  | .jmp Dest => encodeF9 .jxx 0x0 Dest
  | .jle Dest => encodeF9 .jxx 0x1 Dest
  | .jl Dest => encodeF9 .jxx 0x2 Dest
  | .je Dest => encodeF9 .jxx 0x3 Dest
  | .jne Dest => encodeF9 .jxx 0x4 Dest
  | .jge Dest => encodeF9 .jxx 0x5 Dest
  | .jg Dest => encodeF9 .jxx 0x6 Dest
  | .reservedJump7 Dest => encodeF9 .jxx 0x7 Dest
  | .reservedJump8F ifun Dest => encodeF9 .jxx ifun Dest
  | .call ifun Dest => encodeF9 .call ifun Dest
  | .ret ifun => [byteOfNibbles 0x9 ifun]
  | .pushq ifun rA rB => encodeF2 .pushq ifun rA rB
  | .popq ifun rA rB => encodeF2 .popq ifun rA rB
  | .nonInstruction icode ifun => [byteOfNibbles icode ifun]

/-! ### The opcode table as data -/

/-- A row of spec/opcode_table.json: a first byte b is the row's when `b &&& mask = pattern`. -/
structure OpcodeRow where
  mnemonic : String
  pattern : Byte
  mask : Byte
  deriving DecidableEq, Repr

/-- The first byte is one of the row's. -/
def OpcodeRow.covers (r : OpcodeRow) (b : Byte) : Bool := b &&& r.mask == r.pattern

/-- The moves of the table. -/
def opcodeRowsMove : List OpcodeRow :=
  [⟨"halt", 0x00, 0xF0⟩, ⟨"nop", 0x10, 0xF0⟩, ⟨"rrmovq", 0x20, 0xFF⟩, ⟨"cmovle", 0x21, 0xFF⟩,
    ⟨"cmovl", 0x22, 0xFF⟩, ⟨"cmove", 0x23, 0xFF⟩, ⟨"cmovne", 0x24, 0xFF⟩,
    ⟨"cmovge", 0x25, 0xFF⟩, ⟨"cmovg", 0x26, 0xFF⟩, ⟨"reserved_cmov__ifun_7", 0x27, 0xFF⟩,
    ⟨"reserved_cmov__ifun_8..F", 0x28, 0xF8⟩, ⟨"irmovq", 0x30, 0xF0⟩, ⟨"rmmovq", 0x40, 0xF0⟩,
    ⟨"mrmovq", 0x50, 0xF0⟩]

/-- The ALU operations of the table. -/
def opcodeRowsAlu : List OpcodeRow :=
  [⟨"addq", 0x60, 0xFF⟩, ⟨"subq", 0x61, 0xFF⟩, ⟨"andq", 0x62, 0xFF⟩, ⟨"xorq", 0x63, 0xFF⟩,
    ⟨"reserved_OPq__ifun_4..7", 0x64, 0xFC⟩, ⟨"reserved_OPq__ifun_8..F", 0x68, 0xF8⟩]

/-- The control transfers, the stack operations and the non-instruction bytes of the table. -/
def opcodeRowsControl : List OpcodeRow :=
  [⟨"jmp", 0x70, 0xFF⟩, ⟨"jle", 0x71, 0xFF⟩, ⟨"jl", 0x72, 0xFF⟩, ⟨"je", 0x73, 0xFF⟩,
    ⟨"jne", 0x74, 0xFF⟩, ⟨"jge", 0x75, 0xFF⟩, ⟨"jg", 0x76, 0xFF⟩,
    ⟨"reserved_jXX__ifun_7", 0x77, 0xFF⟩, ⟨"reserved_jXX__ifun_8..F", 0x78, 0xF8⟩,
    ⟨"call", 0x80, 0xF0⟩, ⟨"ret", 0x90, 0xF0⟩, ⟨"pushq", 0xA0, 0xF0⟩, ⟨"popq", 0xB0, 0xF0⟩,
    ⟨"non-instruction__icode_C..F", 0xC0, 0xC0⟩]

/-- The 34 rows of spec/opcode_table.json, in its order. -/
def opcodeRows : List OpcodeRow := opcodeRowsMove ++ opcodeRowsAlu ++ opcodeRowsControl

/-! ### The host's table words -/

/-- The longest instruction, in bytes (R101). -/
def maxLength : Nat := 10

/-- The bytes, at the lowest address first, of an instruction given as a number whose bit 0 is bit 0 of
its first byte; every bit from `nbits` up is 0 (log 15). -/
def tableBytes (nbits w : Nat) : List Byte :=
  (List.range maxLength).map fun k => BitVec.ofNat 8 ((w % 2 ^ nbits) >>> (8 * k))

/-- The instruction the decoder reads from a word of the opcode table. -/
def decodeTableWord (nbits w : Nat) : Option Instr :=
  match decode (tableBytes nbits w) with
  | .ok (i, _) => some i
  | .error _ => none

end Sys2Proof
end

