-- ==== Sys2Proof/Config.lean ====
section
/-! DEFINITION. The implementation parameters the spec leaves as arguments of the model (00_scope.md R8,
93_implementation_defined.md section 1) that a rule reads after the reset values are in place. A value
of this type is one hardware; every state carries one (log 1) and no tick changes it. -/

namespace Sys2Proof

/-- STOP_POLICY: which contents of W stop the run (43_memory_writeback.md R249, D19). -/
inductive StopPolicy where
  /-- HALT_ONLY: only a HALT-coded instruction in W. -/
  | haltOnly
  /-- ANY_NON_AOK: also an instruction in W whose status is ADR or INS. -/
  | anyNonAok
  deriving DecidableEq, Repr

/-- The parameters, under the spec's names. -/
structure Config where
  /-- MEM_SIZE: bytes of the memory store (R57, R72). -/
  memSize : Nat
  /-- LONG_ALIGN_CHECK: misaligned 8-byte accesses are out of range (R72, R73). -/
  longAlignCheck : Bool
  /-- REG_F_IS_NONE: a register nibble 0xF names RNONE (R34). -/
  regFIsNone : Bool
  /-- STOP_POLICY (R249). -/
  stopPolicy : StopPolicy
  /-- RESET_PC: F.predPC at reset (R600). -/
  resetPC : Word
  deriving DecidableEq, Repr

/-- The allowed values of MEM_SIZE are 1 .. 2^64; the other parameters are free
(93_implementation_defined.md section 1). -/
abbrev Config.wf (c : Config) : Prop := 1 ≤ c.memSize ∧ c.memSize ≤ 2 ^ 64

/-- The parameters of `State.reset`: the spec's defaults (R8; log 3), and for MEM_SIZE, which the spec
leaves open, the value its test vectors use (D6; DESIGN CHOICE, log 2). -/
def Config.default : Config where
  memSize := 0x1000
  longAlignCheck := false
  regFIsNone := false
  stopPolicy := .haltOnly
  resetPC := 0

end Sys2Proof
end

