-- ==== Sys2Proof/Machine/State.lean ====
section
/-! DEFINITION. The state of the machine (10_state.md, its section 9 is the list): register file, condition
codes, memory store, the five pipeline registers and the run state; and the one field cfg that carries the
machine's parameters (log 1). Reset (70_reset_and_hazards.md R600). -/

namespace Sys2Proof.Machine

/-- The status of an instruction (60_exceptions.md R500). -/
inductive Stat where
  /-- "ok". -/
  | aok
  /-- "halted (explicit halt instruction reached)". -/
  | hlt
  /-- "address-error (memory access out of bounds)". -/
  | adr
  /-- "instruction-error (unrecognized opcode)". -/
  | ins
  deriving DecidableEq, Repr

/-- A register identifier: one of the 16 register numbers, or RNONE (`none`) (10_state.md R31). -/
abbrev RegId := Option (Fin 16)

/-- The register file: 16 words (10_state.md R30). -/
abbrev RegFile := Vector Word 16

/-- The condition codes, "a 3-bit record {zero, sign, overflow}" (10_state.md R40). -/
structure CC where
  ZF : Bool
  SF : Bool
  OF : Bool
  deriving DecidableEq, Repr

/-- The memory store as a list of (address, byte) pairs, addresses strictly rising, no pair holding the
byte an unlisted address reads as (10_state.md R57; `Memory.wf`). -/
abbrev Memory := List Host.Cell

/-- Pipeline register F (10_state.md R47). -/
structure FReg where
  predPC : Word
  deriving DecidableEq, Repr

/-- Pipeline register D (10_state.md R48). -/
structure DReg where
  stat : Stat
  icode : Icode
  ifun : Nibble
  rA : RegId
  rB : RegId
  valC : Word
  valP : Word
  deriving DecidableEq, Repr

/-- Pipeline register E (10_state.md R49); srcA and srcB are carried and read by nothing (D33). -/
structure EReg where
  stat : Stat
  icode : Icode
  ifun : Nibble
  valC : Word
  valA : Word
  valB : Word
  dstE : RegId
  dstM : RegId
  srcA : RegId
  srcB : RegId
  deriving DecidableEq, Repr

/-- Pipeline register M (10_state.md R50). -/
structure MReg where
  stat : Stat
  icode : Icode
  Cnd : Bool
  valE : Word
  valA : Word
  dstE : RegId
  dstM : RegId
  deriving DecidableEq, Repr

/-- Pipeline register W (10_state.md R51). -/
structure WReg where
  stat : Stat
  icode : Icode
  valE : Word
  valM : Word
  dstE : RegId
  dstM : RegId
  deriving DecidableEq, Repr

/-- The whole state. A field's value is the pipeline field's CURRENT value: every stage stages every field
in every tick, so a pending value exists only inside a tick (10_state.md R45). -/
structure State where
  /-- The machine's parameters (00_scope.md R8; log 1). -/
  cfg : Config
  /-- The general registers x[0] .. x[15] (R30). -/
  x : RegFile
  /-- The condition codes (R40). -/
  cc : CC
  /-- The memory store (R57). -/
  mem : Memory
  /-- The pipeline registers (R47 to R51). -/
  F : FReg
  D : DReg
  E : EReg
  M : MReg
  W : WReg
  /-- The run state: true until a tick meets the stop condition (R58). -/
  running : Bool
  /-- The status the run ended with; no value before the first stop (R58, R600; log 9). -/
  finalStat : Option Stat
  deriving DecidableEq, Repr

/-- Why the machine answers no next state. -/
inductive Fault where
  /-- Raised by a tick asked of a machine whose `running` is false: "If `running` is false there is no tick"
  (43_memory_writeback.md R252, 60_exceptions.md R514). Safe: no claim about a next state follows (log 8). -/
  | stopped
  deriving DecidableEq, Repr

/-- Why an instruction has no meaning. -/
inductive Refusal where
  /-- Raised by exec for an instruction the model gives no meaning (no instruction, in this model). Safe. -/
  | notModelled (mnemonic : String)
  deriving DecidableEq, Repr

/-- D at reset: a bubble (R48, R600). -/
def DReg.bubble : DReg := ⟨.aok, .nop, 0, none, none, 0, 0⟩

/-- E at reset: a bubble (R49, R600). -/
def EReg.bubble : EReg := ⟨.aok, .nop, 0, 0, 0, 0, none, none, none, none⟩

/-- M at reset: a bubble, Cnd false (R50, R600). -/
def MReg.bubble : MReg := ⟨.aok, .nop, false, 0, 0, none, none⟩

/-- W at reset: a bubble (R51, R600). -/
def WReg.bubble : WReg := ⟨.aok, .nop, 0, 0, none, none⟩

/-- Reset (R600), for the parameters and for the initial contents RF_INIT, CC_INIT and MEM_INIT that the host
chooses (R602, D21, D22). -/
def State.resetWith (cfg : Config) (rfInit : RegFile) (ccInit : CC) (memInit : Memory) : State where
  cfg := cfg
  x := rfInit
  cc := ccInit
  mem := memInit
  F := ⟨cfg.resetPC⟩
  D := .bubble
  E := .bubble
  M := .bubble
  W := .bubble
  running := true
  finalStat := none

/-- The machine right after reset under the default parameters: registers 0 (DESIGN CHOICE, log 4), ZF = 1,
SF = OF = 0 (PRESUMED, log 5), memory with nothing listed (log 6). -/
def State.reset : State :=
  .resetWith .default (Vector.replicate 16 0) ⟨true, false, false⟩ []

end Sys2Proof.Machine
end

