-- ==== Sys2Proof/Machine/Ops.lean ====
section
/-! DEFINITION. The named operations over memory, registers and status. The core has no exception entry and no
return from one (60_exceptions.md R510): an error is a status, and the one operation that gives an instruction
an error status after Fetch is `Stat.escalate`. -/

namespace Sys2Proof.Machine

/-! ### Memory bytes -/

/-- What an address that the memory lists nothing for reads as (MEM_INIT outside the program; DESIGN CHOICE,
log 6). -/
def Memory.unlisted : Byte := 0x00

/-- The canonical form: addresses strictly rising, no listed byte equal to `Memory.unlisted`. -/
abbrev Memory.wf (m : Memory) : Prop :=
  m.Pairwise (fun p q => p.1 < q.1) ∧ ∀ p ∈ m, p.2 ≠ Memory.unlisted

/-- Every listed address exists: it is below `size` (R57). -/
abbrev Memory.within (m : Memory) (size : Nat) : Prop := ∀ p ∈ m, p.1 < size

/-- The byte at an address. -/
def Memory.get : Memory → Nat → Byte
  | [], _ => Memory.unlisted
  | (k, b) :: rest, a => if a = k then b else Memory.get rest a

/-- Put a byte in front of a memory that lists only higher addresses, unless it is the unlisted byte. -/
def Memory.cons (a : Nat) (b : Byte) (m : Memory) : Memory :=
  if b = Memory.unlisted then m else (a, b) :: m

/-- Write a byte, keeping the canonical form. -/
def Memory.set : Memory → Nat → Byte → Memory
  | [], a, v => Memory.cons a v []
  | (k, b) :: rest, a, v =>
    if a < k then Memory.cons a v ((k, b) :: rest)
    else if a = k then Memory.cons a v rest
    else (k, b) :: Memory.set rest a v

/-- Write a list of bytes at consecutive addresses from `a` up. -/
def Memory.setBytes : Memory → Nat → List Byte → Memory
  | m, _, [] => m
  | m, a, b :: bs => Memory.setBytes (m.set a b) (a + 1) bs

/-- The 8-byte little-endian word at `a` (R70). -/
def Memory.getWord (m : Memory) (a : Nat) : Word :=
  wordOfBytes (m.get a) (m.get (a + 1)) (m.get (a + 2)) (m.get (a + 3))
    (m.get (a + 4)) (m.get (a + 5)) (m.get (a + 6)) (m.get (a + 7))

/-- Store a word little-endian at `a` (R70). -/
def Memory.setWord (m : Memory) (a : Nat) (v : Word) : Memory := m.setBytes a (bytesOfWord v)

/-! ### The memory store's ports -/

/-- The access of `n` bytes at `a` is in range: `a + n <= MEM_SIZE` on unbounded integers, and for n = 8 under
LONG_ALIGN_CHECK `a mod 8 = 0` (20_memory.md R72). -/
def inRange (cfg : Config) (a : Word) (n : Nat) : Bool :=
  decide (a.toNat + n ≤ cfg.memSize) && (!(cfg.longAlignCheck && n == 8) || a.toNat % 8 == 0)

/-- `getByte(a)`: the fetch port (10_state.md R54, 00_scope.md R12); `none` is ok = false. -/
def getByte (cfg : Config) (m : Memory) (a : Word) : Option Byte :=
  if inRange cfg a 1 then some (m.get a.toNat) else none

/-- `getLong(a)`: the data port's read (10_state.md R54, 00_scope.md R12); `none` is ok = false. -/
def getLong (cfg : Config) (m : Memory) (a : Word) : Option Word :=
  if inRange cfg a 8 then some (m.getWord a.toNat) else none

/-- `putLong(v, a)`: the data port's write; out of range it writes no byte (43_memory_writeback.md R232). -/
def putLong (cfg : Config) (m : Memory) (a : Word) (v : Word) : Memory :=
  if inRange cfg a 8 then m.setWord a.toNat v else m

/-! ### Registers -/

/-- Register 4, the stack pointer RSP (10_state.md R35). -/
def RSP : RegId := some 4

/-- The value of a source identifier in the register file: RNONE gives 0 without touching the file (R33). -/
def readReg (x : RegFile) : RegId → Word
  | none => 0
  | some i => x[i]

/-- `x[r] <- v`; nothing for RNONE (R33). -/
def writeReg (x : RegFile) (r : RegId) (v : Word) : RegFile :=
  match r with
  | none => x
  | some i => x.set i v

/-! ### Status -/

/-- A data access that reported ok = false gives its instruction the status ADR; otherwise the status stays
(43_memory_writeback.md R234). -/
def Stat.escalate (st : Stat) (ok : Bool) : Stat := if ok then st else .adr

end Sys2Proof.Machine
end

