-- ==== Sys2Proof/Machine/Operands.lean ====
section
/-! DEFINITION. The operand forms: which fields an icode has (Fetch), the four role tables and the forwarding
network (Decode), the ALU's operands (Execute) and the data address (Memory). Each is a function of the fields
the spec names, and no other. -/

namespace Sys2Proof.Machine

/-! ### Fetch -/

/-- `reg(n)`: the register a nibble names, or RNONE for 0xF under REG_F_IS_NONE (10_state.md R34,
40_fetch.md R145). -/
def regOf (cfg : Config) (n : Nibble) : RegId :=
  if cfg.regFIsNone && n == 0xF then none else some n.toFin

/-! ### Decode: the role tables (41_decode.md R170 to R175) -/

/-- d_srcA (R170). -/
def srcAOf (icode : Icode) (rA : RegId) : RegId :=
  match icode with
  | .rrmovq | .rmmovq | .opq | .pushq => rA
  | .popq | .ret => RSP
  | .halt | .nop | .irmovq | .mrmovq | .jxx | .call | .codeC | .codeD | .codeE | .codeF => none

/-- d_srcB (R171). -/
def srcBOf (icode : Icode) (rB : RegId) : RegId :=
  match icode with
  | .opq | .rmmovq | .mrmovq => rB
  | .pushq | .popq | .call | .ret => RSP
  | .halt | .nop | .rrmovq | .irmovq | .jxx | .codeC | .codeD | .codeE | .codeF => none

/-- d_dstE (R172). -/
def dstEOf (icode : Icode) (rB : RegId) : RegId :=
  match icode with
  | .rrmovq | .irmovq | .opq => rB
  | .pushq | .popq | .call | .ret => RSP
  | .halt | .nop | .rmmovq | .mrmovq | .jxx | .codeC | .codeD | .codeE | .codeF => none

/-- d_dstM (R173). -/
def dstMOf (icode : Icode) (rA : RegId) : RegId :=
  match icode with
  | .mrmovq | .popq => rA
  | .halt | .nop | .rrmovq | .irmovq | .rmmovq | .opq | .jxx | .call | .ret | .pushq
  | .codeC | .codeD | .codeE | .codeF => none

/-- `s == t` in the forwarding network: the same register number; RNONE matches nothing (R180). -/
def forwardsFrom (s t : RegId) : Bool := s.isSome && s == t

/-- The forwarding function: Execute's result of this tick, then M, then W, then the register file; RNONE
gives 0 (R180, R184). -/
def forward (s eDstE : RegId) (eValE : Word) (M : MReg) (W : WReg) (x : RegFile) : Word :=
  if s = none then 0
  else if forwardsFrom s eDstE then eValE
  else if forwardsFrom s M.dstE then M.valE
  else if forwardsFrom s W.dstE then W.valE
  else readReg x s

/-! ### Execute: the ALU's operands (42_execute.md R200, R201) -/

/-- aluA (R200). -/
def aluAOf (E : EReg) : Word :=
  match E.icode with
  | .rrmovq | .opq => E.valA
  | .irmovq | .rmmovq | .mrmovq => E.valC
  | .call | .pushq => -8
  | .ret | .popq => 8
  | .halt | .nop | .jxx | .codeC | .codeD | .codeE | .codeF => 0

/-- aluB (R201). -/
def aluBOf (E : EReg) : Word :=
  match E.icode with
  | .rmmovq | .mrmovq | .opq | .pushq | .popq | .call | .ret => E.valB
  | .rrmovq | .irmovq | .halt | .nop | .jxx | .codeC | .codeD | .codeE | .codeF => 0

/-! ### Memory: the access an instruction makes (43_memory_writeback.md R230 to R233) -/

/-- What the Memory stage does for an instruction: nothing, read a word, or write a word. -/
inductive Access where
  | none
  | read (addr : Word)
  | write (addr data : Word)
  deriving DecidableEq, Repr

/-- The access of the instruction in M: its address is valE or, for POPQ and RET, valA, the stack pointer
before the increment; the data is valA (R230, R231, R232, R233; C3). -/
def accessOf (M : MReg) : Access :=
  match M.icode with
  | .mrmovq => .read M.valE
  | .popq | .ret => .read M.valA
  | .rmmovq | .pushq | .call => .write M.valE M.valA
  | .halt | .nop | .rrmovq | .irmovq | .opq | .jxx | .codeC | .codeD | .codeE | .codeF => .none

end Sys2Proof.Machine
end

