-- ==== Sys2Proof/Machine/Flags.lean ====
section
/-! DEFINITION. The ALU, the condition codes it computes and the conditions that read them
(42_execute.md R202 to R209). -/

namespace Sys2Proof.Machine

/-- The ALU's operators (R202, R203). -/
inductive AluFun where
  | add | sub | and | xor
  /-- A selector 4 to 15. -/
  | unknown
  deriving DecidableEq, Repr

/-- The operator a selector names (30_encoding.md R109, R202). -/
def AluFun.ofIfun (f : Nibble) : AluFun :=
  match f with
  | 0x0#4 => .add
  | 0x1#4 => .sub
  | 0x2#4 => .and
  | 0x3#4 => .xor
  | _ => .unknown

/-- alufun: the ifun for OPQ, ADD for every other icode (R202). -/
def aluFunOf (E : EReg) : AluFun :=
  if E.icode = .opq then .ofIfun E.ifun else .add

/-- The ALU; for SUB "the second operand is the minuend", an unknown selector gives 0 (R203). -/
def alu (f : AluFun) (a b : Word) : Word :=
  match f with
  | .add => a + b
  | .sub => b - a
  | .and => a &&& b
  | .xor => a ^^^ b
  | .unknown => 0

/-- OF': two's-complement overflow of the add or subtract performed, false for the others (R205; C4, D16). -/
def overflow (f : AluFun) (a b r : Word) : Bool :=
  match f with
  | .add => a.msb == b.msb && r.msb != a.msb
  | .sub => a.msb != b.msb && r.msb != b.msb
  | .and | .xor | .unknown => false

/-- The condition codes of an ALU result `r` (R205). -/
def flagsOf (f : AluFun) (a b r : Word) : CC where
  ZF := r == 0
  SF := r.msb
  OF := overflow f a b r

/-- `cond(f, ZF, SF, OF)`: always, le, l, e, ne, ge, g, and false for the reserved selectors (R208). -/
def condition (f : Nibble) (cc : CC) : Bool :=
  match f with
  | 0x0#4 => true
  | 0x1#4 => (cc.SF ^^ cc.OF) || cc.ZF
  | 0x2#4 => cc.SF ^^ cc.OF
  | 0x3#4 => cc.ZF
  | 0x4#4 => !cc.ZF
  | 0x5#4 => !(cc.SF ^^ cc.OF)
  | 0x6#4 => !(cc.SF ^^ cc.OF) && !cc.ZF
  | _ => false

/-- e_Cnd: the condition for RRMOVQ and JXX, false for NOP and HALT, true for every other icode (R209). -/
def eCndOf (E : EReg) (cc : CC) : Bool :=
  match E.icode with
  | .rrmovq | .jxx => condition E.ifun cc
  | .nop | .halt => false
  | .irmovq | .rmmovq | .mrmovq | .opq | .call | .ret | .pushq | .popq
  | .codeC | .codeD | .codeE | .codeF => true

end Sys2Proof.Machine
end

