-- ==== Sys2Proof/Machine/Pipeline.lean ====
section
/-! DEFINITION. The five stages and the tick. Each stage is a function of exactly the pipeline registers and
resources the spec lets it read; a tick computes them all from one starting state and commits them together
(43_memory_writeback.md R252, R253). -/

namespace Sys2Proof.Machine

/-! ### Fetch: PC selection and packets (40_fetch.md) -/

/-- f_pc: the correction of a mispredicted JXX in M, else the return address of a RET in W, else F.predPC
(R140; neither status is read; C11). -/
def selectPC (F : FReg) (M : MReg) (W : WReg) : Word :=
  if M.icode = .jxx && !M.Cnd then M.valA
  else if W.icode = .ret then W.valM
  else F.predPC

/-- The address the next tick fetches at. -/
def State.fetchPC (s : State) : Word := selectPC s.F s.M s.W

/-- What Fetch stages in a tick: D's fields and F.predPC (R150). -/
structure Fetched where
  stat : Stat
  icode : Icode
  ifun : Nibble
  rA : RegId
  rB : RegId
  valC : Word
  valP : Word
  predPC : Word
  deriving DecidableEq, Repr

/-- The part of the packet staged into D (R150). -/
def Fetched.toD (f : Fetched) : DReg := ⟨f.stat, f.icode, f.ifun, f.rA, f.rB, f.valC, f.valP⟩

/-- The packet of a fetch with an out-of-range byte: ADR, icode 0 and every other field RNONE or 0 (R146). -/
def Fetched.addressError : Fetched := ⟨.adr, .halt, 0, none, none, 0, 0, 0⟩

/-- The packet of a one-byte instruction: no registers, no constant, predicted to fall through
(R103 F1, R144, R148, R149). -/
def State.fetchF1 (s : State) (stat : Stat) (icode : Icode) (ifun : Nibble) : Fetched :=
  ⟨stat, icode, ifun, none, none, 0, s.fetchPC + 1, s.fetchPC + 1⟩

/-- The packet of a two-byte instruction: registers, no constant, predicted to fall through
(R103 F2, R144, R145, R148). -/
def State.fetchF2 (s : State) (icode : Icode) (ifun rA rB : Nibble) : Fetched :=
  ⟨.aok, icode, ifun, regOf s.cfg rA, regOf s.cfg rB, 0, s.fetchPC + 2, s.fetchPC + 2⟩

/-- The packet of a nine-byte instruction, JXX or CALL: predicted taken (R103 F9, R144, R148, C1). -/
def State.fetchF9 (s : State) (icode : Icode) (ifun : Nibble) (c : Word) : Fetched :=
  ⟨.aok, icode, ifun, none, none, c, s.fetchPC + 9, c⟩

/-- The packet of a ten-byte instruction: registers and a constant, predicted to fall through
(R103 F10, R144, R145, R148). -/
def State.fetchF10 (s : State) (icode : Icode) (ifun rA rB : Nibble) (c : Word) : Fetched :=
  ⟨.aok, icode, ifun, regOf s.cfg rA, regOf s.cfg rB, c, s.fetchPC + 10, s.fetchPC + 10⟩

/-! ### Execute (42_execute.md) -/

/-- e_valE (R203). -/
def eValE (E : EReg) : Word := alu (aluFunOf E) (aluAOf E) (aluBOf E)

/-- e_dstE: a conditional move whose condition is false loses its destination (R211). -/
def eDstE (E : EReg) (cc : CC) : RegId :=
  if E.icode = .rrmovq && !eCndOf E cc then none else E.dstE

/-- The condition codes after the tick: written for OPQ only, whatever any status is (R205, R206). -/
def nextCC (E : EReg) (cc : CC) : CC :=
  if E.icode = .opq then flagsOf (aluFunOf E) (aluAOf E) (aluBOf E) (eValE E) else cc

/-- What Execute stages into M (R212). -/
def nextM (E : EReg) (cc : CC) : MReg :=
  ⟨E.stat, E.icode, eCndOf E cc, eValE E, E.valA, eDstE E cc, E.dstM⟩

/-! ### Decode (41_decode.md) -/

/-- fwd(s), with this tick's Execute results as the first source (R180, R185). -/
def fwd (E : EReg) (M : MReg) (W : WReg) (cc : CC) (x : RegFile) (s : RegId) : Word :=
  forward s (eDstE E cc) (eValE E) M W x

/-- d_valA: the fallthrough address for CALL and JXX, the forwarded srcA otherwise (R181). -/
def dValA (D : DReg) (E : EReg) (M : MReg) (W : WReg) (cc : CC) (x : RegFile) : Word :=
  if D.icode = .call || D.icode = .jxx then D.valP
  else fwd E M W cc x (srcAOf D.icode D.rA)

/-- d_valB (R182). -/
def dValB (D : DReg) (E : EReg) (M : MReg) (W : WReg) (cc : CC) (x : RegFile) : Word :=
  fwd E M W cc x (srcBOf D.icode D.rB)

/-- What Decode stages into E (R187). -/
def nextE (D : DReg) (E : EReg) (M : MReg) (W : WReg) (cc : CC) (x : RegFile) : EReg :=
  ⟨D.stat, D.icode, D.ifun, D.valC, dValA D E M W cc x, dValB D E M W cc x,
    dstEOf D.icode D.rB, dstMOf D.icode D.rA, srcAOf D.icode D.rA, srcBOf D.icode D.rB⟩

/-! ### Memory (43_memory_writeback.md) -/

/-- The ok of the access of the instruction in M; true when it makes none (R234). -/
def accessOk (cfg : Config) : Access → Bool
  | .none => true
  | .read a => inRange cfg a 8
  | .write a _ => inRange cfg a 8

/-- m_valM: the word read, 0 when the read fails or there is none (R231, R232, R233). -/
def mValM (cfg : Config) (mem : Memory) : Access → Word
  | .none => 0
  | .read a => (getLong cfg mem a).getD 0
  | .write _ _ => 0

/-- The memory after the tick (R232, R233). -/
def nextMem (cfg : Config) (mem : Memory) : Access → Memory
  | .none => mem
  | .read _ => mem
  | .write a v => putLong cfg mem a v

/-- What Memory stages into W (R234, R236). -/
def nextW (cfg : Config) (M : MReg) (mem : Memory) : WReg :=
  ⟨M.stat.escalate (accessOk cfg (accessOf M)), M.icode, M.valE, mValM cfg mem (accessOf M),
    M.dstE, M.dstM⟩

/-! ### Writeback (43_memory_writeback.md) -/

/-- w_done, the `done` output to the driver: reads the icode alone (R245, R56). -/
def WReg.done (W : WReg) : Bool := W.icode == .halt

/-- The register file after the tick: the dstE write, then the dstM write; nothing for HALT; no status is
read (R246, R247, R250). -/
def nextX (W : WReg) (x : RegFile) : RegFile :=
  if W.icode = .halt then x else writeReg (writeReg x W.dstE W.valE) W.dstM W.valM

/-- The stop condition under a STOP_POLICY (R249). -/
def stopsRun (policy : StopPolicy) (W : WReg) : Bool :=
  match policy with
  | .haltOnly => W.done
  | .anyNonAok => W.done || W.stat == .adr || W.stat == .ins

/-! ### The tick -/

/-- One tick, Fetch's packet given: all stages read `s`, everything commits together, and the run stops at its
end when W meets the stop condition (R252, R254, R257). -/
def State.tick (s : State) (f : Fetched) : State where
  cfg := s.cfg
  x := nextX s.W s.x
  cc := nextCC s.E s.cc
  mem := nextMem s.cfg s.mem (accessOf s.M)
  F := ⟨f.predPC⟩
  D := f.toD
  E := nextE s.D s.E s.M s.W s.cc s.x
  M := nextM s.E s.cc
  W := nextW s.cfg s.M s.mem
  running := !stopsRun s.cfg.stopPolicy s.W
  finalStat := if stopsRun s.cfg.stopPolicy s.W then some s.W.stat else s.finalStat

/-- The driver's clock: a tick of a running machine, and none once stopped (R252, R255, R514; log 8). -/
def clock (s : State) (f : Fetched) : Host.Outcome State Fault Refusal :=
  if s.running then .next (s.tick f) else .fault .stopped

end Sys2Proof.Machine
end

