-- ==== Sys2Proof/Machine/Alu.lean ====
section
/-! DEFINITION. The integer ALU operations (45_alu.md): icode OPQ, the ifun selects the operator in Execute
(42_execute.md R202). -/

namespace Sys2Proof.Machine

/-- `addq rA, rB` (R340, R341). -/
def execAddq (rA rB : Nibble) (s : State) : Host.Outcome State Fault Refusal :=
  clock s (s.fetchF2 .opq 0x0 rA rB)

/-- `subq rA, rB` (R340, R342). -/
def execSubq (rA rB : Nibble) (s : State) : Host.Outcome State Fault Refusal :=
  clock s (s.fetchF2 .opq 0x1 rA rB)

/-- `andq rA, rB` (R340, R343). -/
def execAndq (rA rB : Nibble) (s : State) : Host.Outcome State Fault Refusal :=
  clock s (s.fetchF2 .opq 0x2 rA rB)

/-- `xorq rA, rB` (R340, R344). -/
def execXorq (rA rB : Nibble) (s : State) : Host.Outcome State Fault Refusal :=
  clock s (s.fetchF2 .opq 0x3 rA rB)

/-- The reserved ALU operations with ifun 4 to 7: result 0 (R340, R345). -/
def execReservedOp47 (ifun rA rB : Nibble) (s : State) : Host.Outcome State Fault Refusal :=
  clock s (s.fetchF2 .opq ifun rA rB)

/-- The reserved ALU operations with ifun 8 to F: result 0 (R340, R345). -/
def execReservedOp8F (ifun rA rB : Nibble) (s : State) : Host.Outcome State Fault Refusal :=
  clock s (s.fetchF2 .opq ifun rA rB)

end Sys2Proof.Machine
end

