-- ==== Sys2Proof/Machine/Control.lean ====
section
/-! DEFINITION. Jumps, call and return (46_control.md). Every jump and the call are fetched predicted taken; the
correction of a jump from M and the redirect of a return from W are in the PC selection (40_fetch.md R140). -/

namespace Sys2Proof.Machine

/-- `jmp Dest` (R370, R371). -/
def execJmp (Dest : Word) (s : State) : Host.Outcome State Fault Refusal :=
  clock s (s.fetchF9 .jxx 0x0 Dest)

/-- `jle Dest` (R370, R372). -/
def execJle (Dest : Word) (s : State) : Host.Outcome State Fault Refusal :=
  clock s (s.fetchF9 .jxx 0x1 Dest)

/-- `jl Dest` (R370, R373). -/
def execJl (Dest : Word) (s : State) : Host.Outcome State Fault Refusal :=
  clock s (s.fetchF9 .jxx 0x2 Dest)

/-- `je Dest` (R370, R374). -/
def execJe (Dest : Word) (s : State) : Host.Outcome State Fault Refusal :=
  clock s (s.fetchF9 .jxx 0x3 Dest)

/-- `jne Dest` (R370, R375). -/
def execJne (Dest : Word) (s : State) : Host.Outcome State Fault Refusal :=
  clock s (s.fetchF9 .jxx 0x4 Dest)

/-- `jge Dest` (R370, R376). -/
def execJge (Dest : Word) (s : State) : Host.Outcome State Fault Refusal :=
  clock s (s.fetchF9 .jxx 0x5 Dest)

/-- `jg Dest` (R370, R377). -/
def execJg (Dest : Word) (s : State) : Host.Outcome State Fault Refusal :=
  clock s (s.fetchF9 .jxx 0x6 Dest)

/-- The reserved jump with ifun 7: predicted taken, always corrected (R370, R378). -/
def execReservedJump7 (Dest : Word) (s : State) : Host.Outcome State Fault Refusal :=
  clock s (s.fetchF9 .jxx 0x7 Dest)

/-- The reserved jumps with ifun 8 to F: predicted taken, always corrected (R370, R378). -/
def execReservedJump8F (ifun : Nibble) (Dest : Word) (s : State) :
    Host.Outcome State Fault Refusal :=
  clock s (s.fetchF9 .jxx ifun Dest)

/-- `call Dest` (R379). -/
def execCall (ifun : Nibble) (Dest : Word) (s : State) : Host.Outcome State Fault Refusal :=
  clock s (s.fetchF9 .call ifun Dest)

/-- `ret` (R380): not predicted, the fallthrough is fetched next. -/
def execRet (ifun : Nibble) (s : State) : Host.Outcome State Fault Refusal :=
  clock s (s.fetchF1 .aok .ret ifun)

end Sys2Proof.Machine
end

