-- ==== Sys2Proof/Machine/Misc.lean ====
section
/-! DEFINITION. halt, nop and non-instructions (44_misc_and_moves.md section 1). A meaning is the tick in which
Fetch reads the instruction: it stages the packet the instruction's F line gives, while the other stages work on
the instructions already in the pipeline; the D, E, M and W lines of the instruction are that packet's way
through the stages of the next four ticks (R256, R300; log 14). -/

namespace Sys2Proof.Machine

/-- `halt` (R301): F: stat = HLT, valP = pc + 1, predPC = valP. -/
def execHalt (ifun : Nibble) (s : State) : Host.Outcome State Fault Refusal :=
  clock s (s.fetchF1 .hlt .halt ifun)

/-- `nop` (R302): F: stat = AOK, valP = pc + 1, predPC = valP. -/
def execNop (ifun : Nibble) (s : State) : Host.Outcome State Fault Refusal :=
  clock s (s.fetchF1 .aok .nop ifun)

/-- A non-instruction byte (R303): F: stat = INS, icode and ifun raw, valP = pc + 1, predPC = valP. -/
def execNonInstruction (icode ifun : Nibble) (s : State) : Host.Outcome State Fault Refusal :=
  clock s (s.fetchF1 .ins (.ofNibble icode) ifun)

end Sys2Proof.Machine
end

