-- ==== Sys2Proof/Machine/Moves.lean ====
section
/-! DEFINITION. Register, conditional, immediate and memory moves (44_misc_and_moves.md sections 2 and 3). The
conditional moves differ in the ifun they stage, the selector Execute evaluates (42_execute.md R208). -/

namespace Sys2Proof.Machine

/-- `rrmovq rA, rB` (R304): condition "always". -/
def execRrmovq (rA rB : Nibble) (s : State) : Host.Outcome State Fault Refusal :=
  clock s (s.fetchF2 .rrmovq 0x0 rA rB)

/-- `cmovle rA, rB` (R305). -/
def execCmovle (rA rB : Nibble) (s : State) : Host.Outcome State Fault Refusal :=
  clock s (s.fetchF2 .rrmovq 0x1 rA rB)

/-- `cmovl rA, rB` (R306). -/
def execCmovl (rA rB : Nibble) (s : State) : Host.Outcome State Fault Refusal :=
  clock s (s.fetchF2 .rrmovq 0x2 rA rB)

/-- `cmove rA, rB` (R307). -/
def execCmove (rA rB : Nibble) (s : State) : Host.Outcome State Fault Refusal :=
  clock s (s.fetchF2 .rrmovq 0x3 rA rB)

/-- `cmovne rA, rB` (R308). -/
def execCmovne (rA rB : Nibble) (s : State) : Host.Outcome State Fault Refusal :=
  clock s (s.fetchF2 .rrmovq 0x4 rA rB)

/-- `cmovge rA, rB` (R309). -/
def execCmovge (rA rB : Nibble) (s : State) : Host.Outcome State Fault Refusal :=
  clock s (s.fetchF2 .rrmovq 0x5 rA rB)

/-- `cmovg rA, rB` (R310). -/
def execCmovg (rA rB : Nibble) (s : State) : Host.Outcome State Fault Refusal :=
  clock s (s.fetchF2 .rrmovq 0x6 rA rB)

/-- The reserved conditional move with ifun 7 (R311): its condition is false, it never moves. -/
def execReservedCmov7 (rA rB : Nibble) (s : State) : Host.Outcome State Fault Refusal :=
  clock s (s.fetchF2 .rrmovq 0x7 rA rB)

/-- The reserved conditional moves with ifun 8 to F (R311): their condition is false. -/
def execReservedCmov8F (ifun rA rB : Nibble) (s : State) : Host.Outcome State Fault Refusal :=
  clock s (s.fetchF2 .rrmovq ifun rA rB)

/-- `irmovq V, rB` (R312). -/
def execIrmovq (ifun rA rB : Nibble) (V : Word) (s : State) : Host.Outcome State Fault Refusal :=
  clock s (s.fetchF10 .irmovq ifun rA rB V)

/-- `rmmovq rA, D(rB)` (R313). -/
def execRmmovq (ifun rA rB : Nibble) (D : Word) (s : State) : Host.Outcome State Fault Refusal :=
  clock s (s.fetchF10 .rmmovq ifun rA rB D)

/-- `mrmovq D(rB), rA` (R314). -/
def execMrmovq (ifun rA rB : Nibble) (D : Word) (s : State) : Host.Outcome State Fault Refusal :=
  clock s (s.fetchF10 .mrmovq ifun rA rB D)

end Sys2Proof.Machine
end

