-- ==== Sys2Proof/Machine/Stack.lean ====
section
/-! DEFINITION. The stack operations (47_stack.md). -/

namespace Sys2Proof.Machine

/-- `pushq rA` (R410). -/
def execPushq (ifun rA rB : Nibble) (s : State) : Host.Outcome State Fault Refusal :=
  clock s (s.fetchF2 .pushq ifun rA rB)

/-- `popq rA` (R411). -/
def execPopq (ifun rA rB : Nibble) (s : State) : Host.Outcome State Fault Refusal :=
  clock s (s.fetchF2 .popq ifun rA rB)

end Sys2Proof.Machine
end

