-- ==== Sys2Proof/Machine/Dispatch.lean ====
section
/-! DEFINITION. One arm per constructor of Instr: the tick in which Fetch reads that instruction. -/

namespace Sys2Proof.Machine

def exec (i : Instr) (s : State) : Host.Outcome State Fault Refusal :=
  match i with
  | .halt ifun => Sys2Proof.Machine.execHalt ifun s
  | .nop ifun => Sys2Proof.Machine.execNop ifun s
  | .rrmovq rA rB => Sys2Proof.Machine.execRrmovq rA rB s
  | .cmovle rA rB => Sys2Proof.Machine.execCmovle rA rB s
  | .cmovl rA rB => Sys2Proof.Machine.execCmovl rA rB s
  | .cmove rA rB => Sys2Proof.Machine.execCmove rA rB s
  | .cmovne rA rB => Sys2Proof.Machine.execCmovne rA rB s
  | .cmovge rA rB => Sys2Proof.Machine.execCmovge rA rB s
  | .cmovg rA rB => Sys2Proof.Machine.execCmovg rA rB s
  | .reservedCmov7 rA rB => Sys2Proof.Machine.execReservedCmov7 rA rB s
  | .reservedCmov8F ifun rA rB => Sys2Proof.Machine.execReservedCmov8F ifun rA rB s
  | .irmovq ifun rA rB V => Sys2Proof.Machine.execIrmovq ifun rA rB V s
  | .rmmovq ifun rA rB D => Sys2Proof.Machine.execRmmovq ifun rA rB D s
  | .mrmovq ifun rA rB D => Sys2Proof.Machine.execMrmovq ifun rA rB D s
  | .addq rA rB => Sys2Proof.Machine.execAddq rA rB s
  | .subq rA rB => Sys2Proof.Machine.execSubq rA rB s
  | .andq rA rB => Sys2Proof.Machine.execAndq rA rB s
  | .xorq rA rB => Sys2Proof.Machine.execXorq rA rB s
  | .reservedOp47 ifun rA rB => Sys2Proof.Machine.execReservedOp47 ifun rA rB s
  | .reservedOp8F ifun rA rB => Sys2Proof.Machine.execReservedOp8F ifun rA rB s
  | .jmp Dest => Sys2Proof.Machine.execJmp Dest s
  | .jle Dest => Sys2Proof.Machine.execJle Dest s
  | .jl Dest => Sys2Proof.Machine.execJl Dest s
  | .je Dest => Sys2Proof.Machine.execJe Dest s
  | .jne Dest => Sys2Proof.Machine.execJne Dest s
  | .jge Dest => Sys2Proof.Machine.execJge Dest s
  | .jg Dest => Sys2Proof.Machine.execJg Dest s
  | .reservedJump7 Dest => Sys2Proof.Machine.execReservedJump7 Dest s
  | .reservedJump8F ifun Dest => Sys2Proof.Machine.execReservedJump8F ifun Dest s
  | .call ifun Dest => Sys2Proof.Machine.execCall ifun Dest s
  | .ret ifun => Sys2Proof.Machine.execRet ifun s
  | .pushq ifun rA rB => Sys2Proof.Machine.execPushq ifun rA rB s
  | .popq ifun rA rB => Sys2Proof.Machine.execPopq ifun rA rB s
  | .nonInstruction icode ifun => Sys2Proof.Machine.execNonInstruction icode ifun s

end Sys2Proof.Machine
end

