-- ==== Sys2Proof/Machine/Fetch.lean ====
section
/-! DEFINITION. Reading an instruction's bytes (40_fetch.md R141, R145), and placing bytes where they will be
fetched, for the host's withFetchWord (log 7). -/

namespace Sys2Proof.Machine

/-- The bytes at `a`, `a + 1`, ..., at most `n` of them, up to the first that is out of range. Each is a 1-byte
read at a word address, so the address wraps modulo 2^64 (R145, 00_scope.md R10; log 12). -/
def readWhileInRange (cfg : Config) (m : Memory) (a : Word) : Nat → List Byte
  | 0 => []
  | n + 1 =>
    match getByte cfg m a with
    | none => []
    | some b => b :: readWhileInRange cfg m (a + 1) n

/-- The bytes Fetch can read from f_pc on. The decoder takes the ones the icode asks for; reading more of them
has no effect (20_memory.md R77), and a byte it asks for that is not there is a failed fetch read (R146). -/
def State.fetchWindow (s : State) : List Byte :=
  readWhileInRange s.cfg s.mem s.fetchPC maxLength

/-- Write bytes at consecutive word addresses, leaving out those out of range. -/
def writeInRange (cfg : Config) (m : Memory) (a : Word) : List Byte → Memory
  | [] => m
  | b :: bs => writeInRange cfg (if inRange cfg a 1 then m.set a.toNat b else m) (a + 1) bs

end Sys2Proof.Machine
end

