-- ==== Sys2Proof/Machine/Step.lean ====
section
/-! DEFINITION. One step: one tick of the running machine (43_memory_writeback.md R252). -/

namespace Sys2Proof.Machine

/-- One tick: Fetch reads the instruction at f_pc and the tick is that instruction's; when one of its bytes is
out of range, the tick of the fetch-ADR packet (40_fetch.md R146, R151). None once stopped (R252, R255). -/
def step (s : State) : Host.Outcome State Fault Refusal :=
  match decode s.fetchWindow with
  | .ok (i, _) => exec i s
  | .error _ => clock s .addressError

/-- The host's placement of one instruction: `s`, running, with the instruction's bytes where the next tick
fetches. It stands for the load of a program into MEM_INIT (70_reset_and_hazards.md R602; log 7), and it makes
the next step run the instruction when the ten bytes at f_pc are in range, as they are after reset. -/
def State.withFetchWord (s : State) (nbits w : Nat) : State :=
  { s with
    mem := writeInRange s.cfg s.mem s.fetchPC (tableBytes nbits w)
    running := true }

end Sys2Proof.Machine
end

