-- ==== Sys2Proof/Machine/Effect.lean ====
section
/-! DEFINITION. The sequential reading of an instruction: the "Effect", "Flags" and "Status" lines of the
instruction rules (44_misc_and_moves.md to 47_stack.md), which the pipeline realises for instructions whose
operands no hazard touches (R300). The machine never uses it; statements compare the pipeline with it. -/

namespace Sys2Proof.Machine

/-- What an Effect line changes: registers, condition codes and memory. -/
structure Arch where
  x : RegFile
  cc : CC
  mem : Memory
  deriving DecidableEq, Repr

/-- The registers, condition codes and memory of a state. -/
def State.arch (s : State) : Arch := ⟨s.x, s.cc, s.mem⟩

/-- An instruction's effect: the resulting registers, flags and memory, its final status, and the address of
the next instruction. -/
structure Effect where
  arch : Arch
  stat : Stat
  next : Word
  deriving DecidableEq, Repr

/-- No effect but going on (R302, R303; and R301, whose run then stops). -/
def idleEffect (stat : Stat) (pc : Word) (a : Arch) : Effect := ⟨a, stat, pc + 1⟩

/-- `if cond(f) then x[rB] <- x[rA]`; next = pc + 2 (R304 to R311). -/
def moveEffect (cfg : Config) (f rA rB : Nibble) (pc : Word) (a : Arch) : Effect :=
  ⟨if condition f a.cc then
      { a with x := writeReg a.x (regOf cfg rB) (readReg a.x (regOf cfg rA)) }
    else a, .aok, pc + 2⟩

/-- `x[rB] <- x[rB] op x[rA]`, flags from the result; next = pc + 2 (R340 to R345). -/
def opEffect (cfg : Config) (f : AluFun) (rA rB : Nibble) (pc : Word) (a : Arch) : Effect :=
  let u := readReg a.x (regOf cfg rA)
  let v := readReg a.x (regOf cfg rB)
  ⟨{ a with x := writeReg a.x (regOf cfg rB) (alu f u v), cc := flagsOf f u v (alu f u v) }, .aok,
    pc + 2⟩

/-- next = Dest if the condition holds, else pc + 9; nothing else (R370 to R378). -/
def jumpEffect (f : Nibble) (Dest pc : Word) (a : Arch) : Effect :=
  ⟨a, .aok, if condition f a.cc then Dest else pc + 9⟩

/-- A store of `v` at `addr` with the registers `x` after it: ADR and nothing stored when out of range. -/
def storeEffect (cfg : Config) (addr v : Word) (x : RegFile) (next : Word) (a : Arch) : Effect :=
  ⟨{ a with x := x, mem := putLong cfg a.mem addr v }, if inRange cfg addr 8 then .aok else .adr,
    next⟩

/-- The status of a read at `addr`. -/
def readStat (cfg : Config) (addr : Word) : Stat := if inRange cfg addr 8 then .aok else .adr

/-- The word a read at `addr` gives: 0 when out of range. -/
def readValue (cfg : Config) (addr : Word) (a : Arch) : Word := (getLong cfg a.mem addr).getD 0

/-- The effect of an instruction at address `pc`. -/
def effect (cfg : Config) (pc : Word) (i : Instr) (a : Arch) : Effect :=
  let sp := readReg a.x RSP
  match i with
  | .halt _ => idleEffect .hlt pc a
  | .nop _ => idleEffect .aok pc a
  | .rrmovq rA rB => moveEffect cfg 0x0 rA rB pc a
  | .cmovle rA rB => moveEffect cfg 0x1 rA rB pc a
  | .cmovl rA rB => moveEffect cfg 0x2 rA rB pc a
  | .cmove rA rB => moveEffect cfg 0x3 rA rB pc a
  | .cmovne rA rB => moveEffect cfg 0x4 rA rB pc a
  | .cmovge rA rB => moveEffect cfg 0x5 rA rB pc a
  | .cmovg rA rB => moveEffect cfg 0x6 rA rB pc a
  | .reservedCmov7 _ _ => ⟨a, .aok, pc + 2⟩
  | .reservedCmov8F _ _ _ => ⟨a, .aok, pc + 2⟩
  | .irmovq _ _ rB V => ⟨{ a with x := writeReg a.x (regOf cfg rB) V }, .aok, pc + 10⟩
  | .rmmovq _ rA rB D =>
    storeEffect cfg (readReg a.x (regOf cfg rB) + D) (readReg a.x (regOf cfg rA)) a.x (pc + 10) a
  | .mrmovq _ rA rB D =>
    let addr := readReg a.x (regOf cfg rB) + D
    ⟨{ a with x := writeReg a.x (regOf cfg rA) (readValue cfg addr a) }, readStat cfg addr, pc + 10⟩
  | .addq rA rB => opEffect cfg .add rA rB pc a
  | .subq rA rB => opEffect cfg .sub rA rB pc a
  | .andq rA rB => opEffect cfg .and rA rB pc a
  | .xorq rA rB => opEffect cfg .xor rA rB pc a
  | .reservedOp47 _ rA rB => opEffect cfg .unknown rA rB pc a
  | .reservedOp8F _ rA rB => opEffect cfg .unknown rA rB pc a
  | .jmp Dest => jumpEffect 0x0 Dest pc a
  | .jle Dest => jumpEffect 0x1 Dest pc a
  | .jl Dest => jumpEffect 0x2 Dest pc a
  | .je Dest => jumpEffect 0x3 Dest pc a
  | .jne Dest => jumpEffect 0x4 Dest pc a
  | .jge Dest => jumpEffect 0x5 Dest pc a
  | .jg Dest => jumpEffect 0x6 Dest pc a
  | .reservedJump7 _ => ⟨a, .aok, pc + 9⟩
  | .reservedJump8F _ _ => ⟨a, .aok, pc + 9⟩
  | .call _ Dest => storeEffect cfg (sp - 8) (pc + 9) (writeReg a.x RSP (sp - 8)) Dest a
  | .ret _ =>
    ⟨{ a with x := writeReg a.x RSP (sp + 8) }, readStat cfg sp, readValue cfg sp a⟩
  | .pushq _ rA _ =>
    storeEffect cfg (sp - 8) (readReg a.x (regOf cfg rA)) (writeReg a.x RSP (sp - 8)) (pc + 2) a
  | .popq _ rA _ =>
    ⟨{ a with x := writeReg (writeReg a.x RSP (sp + 8)) (regOf cfg rA) (readValue cfg sp a) },
      readStat cfg sp, pc + 2⟩
  | .nonInstruction _ _ => idleEffect .ins pc a

end Sys2Proof.Machine
end

