-- ==== Sys2Proof/Machine/Reference.lean ====
section
/-! DEFINITION. The spec's own restatement of the whole step as functions of the pipeline registers, from raw
bytes and icodes (40_fetch.md R152, 41_decode.md R188, 42_execute.md R213, 43_memory_writeback.md R238, R257),
written line by line from that text. The machine is `step`; this is the design a statement compares it with. -/

namespace Sys2Proof.Machine.Reference

/-- needRegIds (40_fetch.md R142). -/
def needRegIds (icode : Icode) : Bool :=
  [Icode.rrmovq, .opq, .pushq, .popq, .irmovq, .rmmovq, .mrmovq].contains icode

/-- needValC (40_fetch.md R143). -/
def needValC (icode : Icode) : Bool :=
  [Icode.irmovq, .rmmovq, .mrmovq, .jxx, .call].contains icode

/-- icode >= 0xC: not an instruction (30_encoding.md R110). -/
def notInstruction (icode : Icode) : Bool :=
  [Icode.codeC, .codeD, .codeE, .codeF].contains icode

/-- The length of an instruction from its icode alone (30_encoding.md R113). -/
def length (icode : Icode) : Nat :=
  1 + (if needRegIds icode then 1 else 0) + (if needValC icode then 8 else 0)

/-- The register byte's two identifiers, `none` when its read fails; RNONE twice when there is no register byte
(R145, R149). -/
def fetchRegs (cfg : Config) (mem : Memory) (needed : Bool) (a : Word) : Option (RegId × RegId) :=
  if needed then
    (getByte cfg mem a).map fun b1 => (regOf cfg (hiNibble b1), regOf cfg (loNibble b1))
  else some (none, none)

/-- The eight constant bytes, `none` when one of the reads fails; 0 when there is no constant (R145, R149). -/
def fetchConst (cfg : Config) (mem : Memory) (needed : Bool) (a : Word) : Option Word :=
  if needed then do
    let c0 ← getByte cfg mem a
    let c1 ← getByte cfg mem (a + 1)
    let c2 ← getByte cfg mem (a + 2)
    let c3 ← getByte cfg mem (a + 3)
    let c4 ← getByte cfg mem (a + 4)
    let c5 ← getByte cfg mem (a + 5)
    let c6 ← getByte cfg mem (a + 6)
    let c7 ← getByte cfg mem (a + 7)
    return wordOfBytes c0 c1 c2 c3 c4 c5 c6 c7
  else some 0

/-- fetch(F, M, W, mem) (R152). -/
def fetch (cfg : Config) (F : FReg) (M : MReg) (W : WReg) (mem : Memory) : Fetched :=
  let pc := if M.icode = .jxx && !M.Cnd then M.valA else if W.icode = .ret then W.valM else F.predPC
  match getByte cfg mem pc with
  | none => .addressError
  | some b0 =>
    let icode := Icode.ofNibble (hiNibble b0)
    let r : Word := if needRegIds icode then 1 else 0
    let c : Word := if needValC icode then 1 else 0
    match fetchRegs cfg mem (needRegIds icode) (pc + 1) with
    | none => .addressError
    | some (rA, rB) =>
      match fetchConst cfg mem (needValC icode) (pc + 1 + r) with
      | none => .addressError
      | some valC =>
        let valP := pc + 1 + r + 8 * c
        { stat := if notInstruction icode then .ins else if icode = .halt then .hlt else .aok
          icode := icode
          ifun := loNibble b0
          rA := rA
          rB := rB
          valC := valC
          valP := valP
          predPC := if [Icode.jxx, .call].contains icode then valC else valP }

/-- What execute(E, CC) returns (R213). -/
structure Executed where
  valE : Word
  dstE : RegId
  cc : CC
  M : MReg

/-- execute(E, CC) (R213). -/
def execute (E : EReg) (cc : CC) : Executed :=
  let is (l : List Icode) : Bool := l.contains E.icode
  let aluA : Word :=
    if is [.rrmovq, .opq] then E.valA
    else if is [.irmovq, .rmmovq, .mrmovq] then E.valC
    else if is [.call, .pushq] then 0xFFFFFFFFFFFFFFF8
    else if is [.ret, .popq] then 8 else 0
  let aluB : Word :=
    if is [.rmmovq, .mrmovq, .opq, .pushq, .popq, .call, .ret] then E.valB else 0
  let fn : AluFun := if E.icode = .opq then .ofIfun E.ifun else .add
  let valE := alu fn aluA aluB
  let cc' : CC := if E.icode = .opq then ⟨valE == 0, valE.msb, overflow fn aluA aluB valE⟩ else cc
  let Cnd : Bool := if is [.rrmovq, .jxx] then condition E.ifun cc else !is [.nop, .halt]
  let dstE : RegId := if E.icode = .rrmovq && !Cnd then none else E.dstE
  ⟨valE, dstE, cc', ⟨E.stat, E.icode, Cnd, valE, E.valA, dstE, E.dstM⟩⟩

/-- The forwarding function's five cases (41_decode.md R180). -/
def forwarded (s eDstE : RegId) (eValE : Word) (M : MReg) (W : WReg) (x : RegFile) : Word :=
  match s with
  | none => 0
  | some i =>
    if eDstE = some i then eValE
    else if M.dstE = some i then M.valE
    else if W.dstE = some i then W.valE
    else x[i]

/-- decode(D, e_dstE, e_valE, M, W, x) (R188), the four tables as in R174. -/
def decode (D : DReg) (eDstE : RegId) (eValE : Word) (M : MReg) (W : WReg) (x : RegFile) : EReg :=
  let is (l : List Icode) : Bool := l.contains D.icode
  let srcA : RegId :=
    if is [.rrmovq, .rmmovq, .opq, .pushq] then D.rA else if is [.popq, .ret] then RSP else none
  let srcB : RegId :=
    if is [.opq, .rmmovq, .mrmovq] then D.rB
    else if is [.pushq, .popq, .call, .ret] then RSP else none
  let dstE : RegId :=
    if is [.rrmovq, .irmovq, .opq] then D.rB
    else if is [.pushq, .popq, .call, .ret] then RSP else none
  let dstM : RegId := if is [.mrmovq, .popq] then D.rA else none
  let valA := if is [.call, .jxx] then D.valP else forwarded srcA eDstE eValE M W x
  let valB := forwarded srcB eDstE eValE M W x
  ⟨D.stat, D.icode, D.ifun, D.valC, valA, valB, dstE, dstM, srcA, srcB⟩

/-- What memory(M, mem) returns (R238). -/
structure Accessed where
  W : WReg
  store : Option (Word × Word)

/-- memory(M, mem) (R238). -/
def memory (cfg : Config) (M : MReg) (mem : Memory) : Accessed :=
  let is (l : List Icode) : Bool := l.contains M.icode
  let addr : Word :=
    if is [.rmmovq, .pushq, .call, .mrmovq] then M.valE else if is [.popq, .ret] then M.valA else 0
  let loaded : Word × Stat :=
    if is [.mrmovq, .popq, .ret] then
      match getLong cfg mem addr with
      | some v => (v, M.stat)
      | none => (0, .adr)
    else (0, M.stat)
  let stored : Option (Word × Word) × Stat :=
    if is [.rmmovq, .pushq, .call] then
      if inRange cfg addr 8 then (some (addr, M.valA), loaded.2) else (none, .adr)
    else (none, loaded.2)
  ⟨⟨stored.2, M.icode, M.valE, loaded.1, M.dstE, M.dstM⟩, stored.1⟩

/-- step(S) of a running machine (R257). -/
def step (S : State) : State :=
  let f := fetch S.cfg S.F S.M S.W S.mem
  let ex := execute S.E S.cc
  let d := decode S.D ex.dstE ex.valE S.M S.W S.x
  let m := memory S.cfg S.M S.mem
  let stop : Bool := S.W.icode == .halt
    || (S.cfg.stopPolicy == .anyNonAok && (S.W.stat == .adr || S.W.stat == .ins))
  { cfg := S.cfg
    F := ⟨f.predPC⟩
    D := f.toD
    E := d
    M := ex.M
    W := m.W
    cc := ex.cc
    mem := match m.store with
      | some (a, v) => S.mem.setBytes a.toNat (bytesOfWord v)
      | none => S.mem
    x := if S.W.icode = .halt then S.x
      else
        let afterE := match S.W.dstE with
          | none => S.x
          | some i => S.x.set i S.W.valE
        match S.W.dstM with
        | none => afterE
        | some i => afterE.set i S.W.valM
    running := !stop
    finalStat := if stop then some S.W.stat else S.finalStat }

end Sys2Proof.Machine.Reference
end

