-- ==== Sys2Proof/Safety.lean ====
section
/-! DEFINITION. What claims about runs are phrased in: which states the machine can be in (`State.Inv`), going on
from a state (`Next`), instruction streams fed to the pipeline (`feed`), an idle pipeline, and when an
instruction reads a loaded value too early (`LoadUse`). -/

namespace Sys2Proof.Machine

/-! ### The invariant of the pipeline -/

/-- The icodes that access data memory (20_memory.md R76). -/
def accessesMemory (icode : Icode) : Bool :=
  [Icode.mrmovq, .popq, .ret, .rmmovq, .pushq, .call].contains icode

/-- The icodes that read data memory. -/
def readsMemory (icode : Icode) : Bool := [Icode.mrmovq, .popq, .ret].contains icode

/-- The status an instruction can have before the Memory stage: INS exactly for the codes C to F, HLT or a
fetch ADR for HALT, AOK for the others (60_exceptions.md R502, R503). -/
def Stat.fitsBeforeMemory (stat : Stat) (icode : Icode) : Prop :=
  match stat with
  | .aok => icode ≠ .halt ∧ Reference.notInstruction icode = false
  | .hlt | .adr => icode = .halt
  | .ins => Reference.notInstruction icode = true

/-- The status an instruction can have in W: also ADR for one that accessed memory (R503). -/
def Stat.fitsInW (stat : Stat) (icode : Icode) : Prop :=
  stat.fitsBeforeMemory icode ∨ (stat = .adr ∧ accessesMemory icode = true)

/-- The destinations an instruction can carry, by its icode (41_decode.md R172, R173, R174; for RRMOVQ also
after nullification, 42_execute.md R211). -/
def DestinationsFit (icode : Icode) (dstE dstM : RegId) : Prop :=
  match icode with
  | .rrmovq | .irmovq | .opq => dstM = none
  | .pushq | .call | .ret => dstE = RSP ∧ dstM = none
  | .popq => dstE = RSP
  | .mrmovq => dstE = none
  | .halt | .nop | .rmmovq | .jxx | .codeC | .codeD | .codeE | .codeF => dstE = none ∧ dstM = none

/-- The e_Cnd an instruction can carry in M when it does not evaluate a condition (42_execute.md R209). -/
def CndFits (icode : Icode) (Cnd : Bool) : Prop :=
  match icode with
  | .rrmovq | .jxx => True
  | .nop | .halt => Cnd = false
  | .irmovq | .rmmovq | .mrmovq | .opq | .call | .ret | .pushq | .popq
  | .codeC | .codeD | .codeE | .codeF => Cnd = true

/-- A register identifier the parameters allow: under REG_F_IS_NONE nothing names register 15
(10_state.md R34). -/
def RegId.allowed (cfg : Config) (r : RegId) : Prop := cfg.regFIsNone = true → r ≠ some 15

/-- D holds what Fetch can stage (40_fetch.md R146, R147, R149). -/
structure DReg.Inv (cfg : Config) (D : DReg) : Prop where
  stat : D.stat.fitsBeforeMemory D.icode
  regs : Reference.needRegIds D.icode = false → D.rA = none ∧ D.rB = none
  const : Reference.needValC D.icode = false → D.valC = 0
  rA : RegId.allowed cfg D.rA
  rB : RegId.allowed cfg D.rB

/-- E holds what Decode can stage (41_decode.md R187). -/
structure EReg.Inv (cfg : Config) (E : EReg) : Prop where
  stat : E.stat.fitsBeforeMemory E.icode
  dst : DestinationsFit E.icode E.dstE E.dstM
  dstE : RegId.allowed cfg E.dstE
  dstM : RegId.allowed cfg E.dstM
  srcA : RegId.allowed cfg E.srcA
  srcB : RegId.allowed cfg E.srcB

/-- M holds what Execute can stage (42_execute.md R211, R212). -/
structure MReg.Inv (cfg : Config) (M : MReg) : Prop where
  stat : M.stat.fitsBeforeMemory M.icode
  dst : DestinationsFit M.icode M.dstE M.dstM
  cnd : CndFits M.icode M.Cnd
  nullified : M.icode = .rrmovq → M.Cnd = false → M.dstE = none
  dstE : RegId.allowed cfg M.dstE
  dstM : RegId.allowed cfg M.dstM

/-- W holds what Memory can stage (43_memory_writeback.md R231, R233, R236). -/
structure WReg.Inv (cfg : Config) (W : WReg) : Prop where
  stat : W.stat.fitsInW W.icode
  dst : DestinationsFit W.icode W.dstE W.dstM
  valM : readsMemory W.icode = false → W.valM = 0
  dstE : RegId.allowed cfg W.dstE
  dstM : RegId.allowed cfg W.dstM

/-- The invariant of a run: legal parameters, canonical memory within MEM_SIZE, each pipeline register holding
what its stage can stage, and a final status exactly when stopped (R58). -/
structure State.Inv (s : State) : Prop where
  cfg : s.cfg.wf
  memWf : s.mem.wf
  memWithin : s.mem.within s.cfg.memSize
  D : s.D.Inv s.cfg
  E : s.E.Inv s.cfg
  M : s.M.Inv s.cfg
  W : s.W.Inv s.cfg
  final : s.finalStat.isSome = !s.running

/-! ### Going on -/

/-- A status that does not make ANY_NON_AOK stop a run. -/
def Stat.isError (st : Stat) : Bool := st == .adr || st == .ins

/-- "If the run has not stopped, the next tick answers, and P holds after it." A run of ticks is a nest of
these. -/
def Next (s : State) (P : State → Prop) : Prop :=
  s.running = true → ∃ t, step s = .next t ∧ P t

/-- No instruction in flight can stop the run: none is HALT-coded, and the stop policy asks for nothing
else. -/
def State.NoStopAhead (s : State) : Prop :=
  s.cfg.stopPolicy = .haltOnly ∧
    s.D.icode ≠ .halt ∧ s.E.icode ≠ .halt ∧ s.M.icode ≠ .halt ∧ s.W.icode ≠ .halt

/-- The value Decode resolves for a source identifier in the coming tick (41_decode.md R180). -/
def State.operand (s : State) (r : RegId) : Word := fwd s.E s.M s.W s.cc s.x r

/-! ### Instruction streams -/

/-- Feed the pipeline a stream: one tick per instruction, in which Fetch reads that instruction. -/
def feed : List Instr → State → Host.Outcome State Fault Refusal
  | [], s => .next s
  | i :: rest, s =>
    match exec i s with
    | .next t => feed rest t
    | .fault r => .fault r
    | .refused r => .refused r

/-- Four nops: what lets every instruction in flight complete (43_memory_writeback.md R256). -/
def fourNops : List Instr := [.nop 0, .nop 0, .nop 0, .nop 0]

/-- The pipeline holds only nops, as it does at reset and after four of them: nothing in flight has an
effect. -/
def State.Idle (s : State) : Prop :=
  (s.D.stat = .aok ∧ s.D.icode = .nop) ∧
  (s.E.stat = .aok ∧ s.E.icode = .nop ∧ s.E.dstE = none ∧ s.E.dstM = none) ∧
  (s.M.stat = .aok ∧ s.M.icode = .nop ∧ s.M.dstE = none ∧ s.M.dstM = none) ∧
  (s.W.stat = .aok ∧ s.W.icode = .nop ∧ s.W.dstE = none ∧ s.W.dstM = none)

/-- The source identifiers of an instruction (41_decode.md R174). -/
def sourcesOf (cfg : Config) (i : Instr) : List RegId :=
  match i with
  | .rrmovq rA _ | .cmovle rA _ | .cmovl rA _ | .cmove rA _ | .cmovne rA _ | .cmovge rA _
  | .cmovg rA _ | .reservedCmov7 rA _ | .reservedCmov8F _ rA _ => [regOf cfg rA]
  | .rmmovq _ rA rB _ | .addq rA rB | .subq rA rB | .andq rA rB | .xorq rA rB
  | .reservedOp47 _ rA rB | .reservedOp8F _ rA rB => [regOf cfg rA, regOf cfg rB]
  | .mrmovq _ _ rB _ => [regOf cfg rB]
  | .pushq _ rA _ => [regOf cfg rA, RSP]
  | .call _ _ | .ret _ | .popq _ _ _ => [RSP]
  | .halt _ | .nop _ | .irmovq _ _ _ _ | .jmp _ | .jle _ | .jl _ | .je _ | .jne _ | .jge _ | .jg _
  | .reservedJump7 _ | .reservedJump8F _ _ | .nonInstruction _ _ => []

/-- The registers that the one, two or three instructions before the coming one load through dstM
(70_reset_and_hazards.md R611). -/
def State.loadsInFlight (s : State) : List RegId :=
  [dstMOf s.D.icode s.D.rA, s.E.dstM, s.M.dstM]

/-- The load-use hazard: the instruction reads a register that one of the three before it loads
(70_reset_and_hazards.md R611, R618 (1)). -/
def LoadUse (s : State) (i : Instr) : Prop :=
  ∃ n : Fin 16, some n ∈ sourcesOf s.cfg i ∧ some n ∈ s.loadsInFlight

end Sys2Proof.Machine
end

