-- ==== Sys2Proof/Certificates/Slice0/Obligations.lean ====
section
/-! DEFINITION. The statements about the model, from the rules of spec/. The notions they share come first. A
statement about an instruction follows it through the pipeline: `exec i s` is the tick that fetches it, `Next`
goes on to the ticks in which it is in D, E, M and W. A docstring names the rules a statement formalises and,
where one of them marks itself as the spec's own decision (D<n>) or inference, says so. -/

open Sys2Proof Sys2Proof.Machine

namespace Sys2Proof.Claims

/-- The bytes `bs` can be fetched from f_pc on (word addresses, 40_fetch.md R145). -/
def BytesAtFetch (s : State) (bs : List Byte) : Prop :=
  ∀ k (h : k < bs.length), getByte s.cfg s.mem (s.fetchPC + BitVec.ofNat 64 k) = some bs[k]

/-- An 8-byte access at `a` is in range, in the words of 20_memory.md R72. -/
def InRange8 (cfg : Config) (a : Word) : Prop :=
  a.toNat + 8 ≤ cfg.memSize ∧ (cfg.longAlignCheck = true → a.toNat % 8 = 0)

/-- The status an access at `a` leaves an AOK instruction with (43_memory_writeback.md R234). -/
def AccessStat (cfg : Config) (a : Word) (st : Stat) : Prop :=
  (InRange8 cfg a → st = .aok) ∧ (¬InRange8 cfg a → st = .adr)

/-- `v` is what a read at `a` gives: the word whose byte k is the byte at a + k, or 0 out of range
(20_memory.md R70, 43_memory_writeback.md R231). -/
def Loaded (cfg : Config) (m : Memory) (a v : Word) : Prop :=
  (InRange8 cfg a → ∀ k < 8, byteOfWord v k = m.get (a.toNat + k)) ∧ (¬InRange8 cfg a → v = 0)

/-- `m'` is `m` after a write of `v` at `a`: in range, byte k of v at a + k and every other byte as before; out of
range, every byte as before (20_memory.md R70, 43_memory_writeback.md R232). -/
def Stored (cfg : Config) (a v : Word) (m m' : Memory) : Prop :=
  (InRange8 cfg a → (∀ k < 8, m'.get (a.toNat + k) = byteOfWord v k) ∧
      ∀ b, b < a.toNat ∨ a.toNat + 8 ≤ b → m'.get b = m.get b) ∧
    (¬InRange8 cfg a → ∀ b, m'.get b = m.get b)

/-- The signed sum or difference does not fit in 64 bits. -/
def Overflows (r : Int) : Prop := r < -2 ^ 63 ∨ 2 ^ 63 ≤ r

/-- The seven conditions by selector, and false for the reserved selectors (42_execute.md R208). -/
def conditionTable (cc : CC) : List Bool :=
  [true, (cc.SF ^^ cc.OF) || cc.ZF, cc.SF ^^ cc.OF, cc.ZF, !cc.ZF, !(cc.SF ^^ cc.OF),
    !(cc.SF ^^ cc.OF) && !cc.ZF, false, false, false, false, false, false, false, false, false]

/-- The register moves with the ifun each stages and its condition (44_misc_and_moves.md R304 to R311). -/
def moves (rA rB : Nibble) : List (Instr × Nibble × (CC → Bool)) :=
  [(.rrmovq rA rB, 0, fun _ => true),
    (.cmovle rA rB, 1, fun c => (c.SF ^^ c.OF) || c.ZF),
    (.cmovl rA rB, 2, fun c => c.SF ^^ c.OF),
    (.cmove rA rB, 3, fun c => c.ZF),
    (.cmovne rA rB, 4, fun c => !c.ZF),
    (.cmovge rA rB, 5, fun c => !(c.SF ^^ c.OF)),
    (.cmovg rA rB, 6, fun c => !(c.SF ^^ c.OF) && !c.ZF),
    (.reservedCmov7 rA rB, 7, fun _ => false),
    (.reservedCmov8F 8 rA rB, 8, fun _ => false), (.reservedCmov8F 9 rA rB, 9, fun _ => false),
    (.reservedCmov8F 10 rA rB, 10, fun _ => false), (.reservedCmov8F 11 rA rB, 11, fun _ => false),
    (.reservedCmov8F 12 rA rB, 12, fun _ => false), (.reservedCmov8F 13 rA rB, 13, fun _ => false),
    (.reservedCmov8F 14 rA rB, 14, fun _ => false), (.reservedCmov8F 15 rA rB, 15, fun _ => false)]

/-- The jumps with the ifun each stages and its condition (46_control.md R371 to R378). -/
def jumps (Dest : Word) : List (Instr × Nibble × (CC → Bool)) :=
  [(.jmp Dest, 0, fun _ => true),
    (.jle Dest, 1, fun c => (c.SF ^^ c.OF) || c.ZF),
    (.jl Dest, 2, fun c => c.SF ^^ c.OF),
    (.je Dest, 3, fun c => c.ZF),
    (.jne Dest, 4, fun c => !c.ZF),
    (.jge Dest, 5, fun c => !(c.SF ^^ c.OF)),
    (.jg Dest, 6, fun c => !(c.SF ^^ c.OF) && !c.ZF),
    (.reservedJump7 Dest, 7, fun _ => false),
    (.reservedJump8F 8 Dest, 8, fun _ => false), (.reservedJump8F 9 Dest, 9, fun _ => false),
    (.reservedJump8F 10 Dest, 10, fun _ => false), (.reservedJump8F 11 Dest, 11, fun _ => false),
    (.reservedJump8F 12 Dest, 12, fun _ => false), (.reservedJump8F 13 Dest, 13, fun _ => false),
    (.reservedJump8F 14 Dest, 14, fun _ => false), (.reservedJump8F 15 Dest, 15, fun _ => false)]

/-- The ALU operations with the ifun each stages, its result and its overflow, for the operands
valA = u and valB = v (45_alu.md R341 to R345). -/
def operations (rA rB : Nibble) :
    List (Instr × Nibble × (Word → Word → Word) × (Word → Word → Bool)) :=
  [(.addq rA rB, 0, fun u v => u + v, fun u v => u.msb == v.msb && (u + v).msb != u.msb),
    (.subq rA rB, 1, fun u v => v - u, fun u v => u.msb != v.msb && (v - u).msb != v.msb),
    (.andq rA rB, 2, fun u v => v &&& u, fun _ _ => false),
    (.xorq rA rB, 3, fun u v => v ^^^ u, fun _ _ => false),
    (.reservedOp47 4 rA rB, 4, fun _ _ => 0, fun _ _ => false),
    (.reservedOp47 5 rA rB, 5, fun _ _ => 0, fun _ _ => false),
    (.reservedOp47 6 rA rB, 6, fun _ _ => 0, fun _ _ => false),
    (.reservedOp47 7 rA rB, 7, fun _ _ => 0, fun _ _ => false),
    (.reservedOp8F 8 rA rB, 8, fun _ _ => 0, fun _ _ => false),
    (.reservedOp8F 9 rA rB, 9, fun _ _ => 0, fun _ _ => false),
    (.reservedOp8F 10 rA rB, 10, fun _ _ => 0, fun _ _ => false),
    (.reservedOp8F 11 rA rB, 11, fun _ _ => 0, fun _ _ => false),
    (.reservedOp8F 12 rA rB, 12, fun _ _ => 0, fun _ _ => false),
    (.reservedOp8F 13 rA rB, 13, fun _ _ => 0, fun _ _ => false),
    (.reservedOp8F 14 rA rB, 14, fun _ _ => 0, fun _ _ => false),
    (.reservedOp8F 15 rA rB, 15, fun _ _ => 0, fun _ _ => false)]

/-- The registers an instruction writes: rB of the moves and operations, rA of the loads, RSP of the stack and
control operations (41_decode.md R172, R173, R174). -/
def destinations (cfg : Config) : Instr → List RegId
  | .rrmovq _ rB | .cmovle _ rB | .cmovl _ rB | .cmove _ rB | .cmovne _ rB | .cmovge _ rB
  | .cmovg _ rB | .reservedCmov7 _ rB | .reservedCmov8F _ _ rB | .irmovq _ _ rB _
  | .addq _ rB | .subq _ rB | .andq _ rB | .xorq _ rB | .reservedOp47 _ _ rB
  | .reservedOp8F _ _ rB => [regOf cfg rB]
  | .mrmovq _ rA _ _ => [regOf cfg rA]
  | .popq _ rA _ => [regOf cfg rA, RSP]
  | .call _ _ | .ret _ | .pushq _ _ _ => [RSP]
  | .halt _ | .nop _ | .rmmovq _ _ _ _ | .jmp _ | .jle _ | .jl _ | .je _ | .jne _ | .jge _ | .jg _
  | .reservedJump7 _ | .reservedJump8F _ _ | .nonInstruction _ _ => []

/-- The instruction is an OPQ: the only kind that writes the flags (10_state.md R41). -/
def isOperation : Instr → Bool
  | .addq _ _ | .subq _ _ | .andq _ _ | .xorq _ _ | .reservedOp47 _ _ _ | .reservedOp8F _ _ _ => true
  | .halt _ | .nop _ | .rrmovq _ _ | .cmovle _ _ | .cmovl _ _ | .cmove _ _ | .cmovne _ _
  | .cmovge _ _ | .cmovg _ _ | .reservedCmov7 _ _ | .reservedCmov8F _ _ _ | .irmovq _ _ _ _
  | .rmmovq _ _ _ _ | .mrmovq _ _ _ _ | .jmp _ | .jle _ | .jl _ | .je _ | .jne _ | .jge _ | .jg _
  | .reservedJump7 _ | .reservedJump8F _ _ | .call _ _ | .ret _ | .pushq _ _ _ | .popq _ _ _
  | .nonInstruction _ _ => false

/-- The address an instruction stores its eight bytes at, when it is in D of `s`: the operands are the ones Decode
resolves there (43_memory_writeback.md R230, R232). -/
def storeAddress (s : State) : Instr → Option Word
  | .rmmovq _ _ rB D => some (s.operand (regOf s.cfg rB) + D)
  | .call _ _ | .pushq _ _ _ => some (s.operand RSP - 8)
  | .halt _ | .nop _ | .rrmovq _ _ | .cmovle _ _ | .cmovl _ _ | .cmove _ _ | .cmovne _ _
  | .cmovge _ _ | .cmovg _ _ | .reservedCmov7 _ _ | .reservedCmov8F _ _ _ | .irmovq _ _ _ _
  | .mrmovq _ _ _ _ | .addq _ _ | .subq _ _ | .andq _ _ | .xorq _ _ | .reservedOp47 _ _ _
  | .reservedOp8F _ _ _ | .jmp _ | .jle _ | .jl _ | .je _ | .jne _ | .jge _ | .jg _
  | .reservedJump7 _ | .reservedJump8F _ _ | .ret _ | .popq _ _ _ | .nonInstruction _ _ => none

/-- In the tick from `s` to `t`, Decode resolves the source identifier `r` to `v`: srcB to valB, and srcA to valA but
for CALL and JXX (41_decode.md R181, R182). -/
def Resolved (s t : State) (r : RegId) (v : Word) : Prop :=
  (r = t.E.srcB ∧ v = t.E.valB) ∨
    (s.D.icode ≠ .call ∧ s.D.icode ≠ .jxx ∧ r = t.E.srcA ∧ v = t.E.valA)

/-- A state with every status replaced by AOK and no final status: what a status could change is whatever is
left. -/
def forgetStatus (s : State) : State :=
  { s with
    D := { s.D with stat := .aok }
    E := { s.E with stat := .aok }
    M := { s.M with stat := .aok }
    W := { s.W with stat := .aok }
    finalStat := none }

/-- A state without what the three loads in flight carry: their destinations, the word in W, and the memory it
could come from. -/
def forgetLoads (s : State) : State :=
  { s with mem := [], M := { s.M with dstM := none }, W := { s.W with dstM := none, valM := 0 } }

end Sys2Proof.Claims

open Sys2Proof.Claims

/-! ### Encoding -/

/-- Words written out from the opcode map (30_encoding.md R114, R105; the numbers, the places of the
fields and the byte order are the spec's D1, D2, D5) decode to the instructions they stand for: one per format and
family. -/
def Obligations.TableWordsDecode : Prop :=
  decode [0x00] = .ok (.halt 0, []) ∧
  decode [0x15, 0x30] = .ok (.nop 5, [0x30]) ∧
  decode [0x24, 0x12] = .ok (.cmovne 1 2, []) ∧
  decode [0x30, 0xF3, 0x0A, 0, 0, 0, 0, 0, 0, 0x80] = .ok (.irmovq 0 15 3 0x800000000000000A, []) ∧
  decode [0x50, 0x13, 0xF8, 0xFF, 0xFF, 0xFF, 0xFF, 0xFF, 0xFF, 0xFF] =
    .ok (.mrmovq 0 1 3 0xFFFFFFFFFFFFFFF8, []) ∧
  decode [0x61, 0x12] = .ok (.subq 1 2, []) ∧
  decode [0x68, 0x01] = .ok (.reservedOp8F 8 0 1, []) ∧
  decode [0x73, 0x00, 0x02, 0, 0, 0, 0, 0, 0] = .ok (.je 0x200, []) ∧
  decode [0x80, 0x88, 0x77, 0x66, 0x55, 0x44, 0x33, 0x22, 0x11] =
    .ok (.call 0 0x1122334455667788, []) ∧
  decode [0x90] = .ok (.ret 0, []) ∧
  decode [0xA0, 0x2F] = .ok (.pushq 0 2 15, []) ∧
  decode [0xF5] = .ok (.nonInstruction 15 5, [])

/-- Decoding the encoding of any well-formed instruction, whatever bytes follow it, gives it back with every
operand (the encodings of 30_encoding.md R103, R114; their numbers are the spec's D1, D2, D5). -/
def Obligations.DecodeOfEncode : Prop :=
  ∀ i : Instr, i.wf = true → ∀ rest : List Byte, decode (encode i ++ rest) = .ok (i, rest)

/-- Whatever bytes decode, they are the encoding of a well-formed instruction followed by the bytes left
over: no bit of an instruction is dropped (30_encoding.md R103, R114; the numbers are the spec's D1, D2, D5). -/
def Obligations.EncodeOfDecode : Prop :=
  ∀ (bs rest : List Byte) (i : Instr), decode bs = .ok (i, rest) →
    i.wf = true ∧ bs = encode i ++ rest

/-- Every first byte is covered by exactly one row of the opcode table, and ten bytes that begin with it decode
to an instruction of that row: nothing is refused (30_encoding.md R111, R114, the spec's D1, D9;
93_implementation_defined.md section 2). -/
def Obligations.FirstByteSelectsOneRow : Prop :=
  ∀ (b : Byte) (rest : List Byte), rest.length = 9 →
    ∃ i tail, decode (b :: rest) = .ok (i, tail) ∧
      (opcodeRows.filter fun r => r.covers b).map OpcodeRow.mnemonic = [i.mnemonic]

/-- The length is known from the icode alone: bytes decode exactly when there are as many as the icode's length,
and that many are consumed (30_encoding.md R113, which the spec derives from R142 to R144; the length of the
codes C to F is its D9). -/
def Obligations.LengthFromIcode : Prop :=
  ∀ (b : Byte) (bytes : List Byte),
    (Reference.length (.ofNibble (hiNibble b)) ≤ bytes.length + 1 →
      ∃ i tail, decode (b :: bytes) = .ok (i, tail) ∧
        i.length = Reference.length (.ofNibble (hiNibble b)) ∧
        bytes.length + 1 = i.length + tail.length) ∧
    (bytes.length + 1 < Reference.length (.ofNibble (hiNibble b)) →
      ∃ e, decode (b :: bytes) = .error e)

/-! ### Fetch -/

/-- A step runs the decoded instruction: when the bytes at f_pc are an instruction's, the step is exec of that
instruction; the step adds nothing around it (40_fetch.md R141, R145, R151; the byte-by-byte reads and that every
tick fetches are the spec's D8, D18). -/
def Obligations.StepRunsDecodedInstruction : Prop :=
  ∀ (s : State) (i : Instr),
    (i.wf = true → BytesAtFetch s (encode i) → step s = exec i s) ∧
    (∀ rest, decode s.fetchWindow = .ok (i, rest) → step s = exec i s)

/-- When the opcode byte, or any byte the icode asks for, is out of range, the step stages status ADR with icode
HALT and every other field 0 or RNONE, and predicts 0 (40_fetch.md R146; the bytes after the opcode byte and
the zeros are the spec's D8, D14). -/
def Obligations.FetchOutOfRangeStagesAddressError : Prop :=
  ∀ s : State, s.running = true →
    (getByte s.cfg s.mem s.fetchPC = none ∨
      ∃ b, getByte s.cfg s.mem s.fetchPC = some b ∧
        ∃ k, k < Reference.length (.ofNibble (hiNibble b)) ∧
          getByte s.cfg s.mem (s.fetchPC + BitVec.ofNat 64 k) = none) →
    ∃ t, step s = .next t ∧ t.D = ⟨.adr, .halt, 0, none, none, 0, 0⟩ ∧ t.F.predPC = 0

/-- The host's placement of a table word is fetched and run by the next step, when the ten bytes at f_pc exist
(log 7 and log 15: the placement is the model's, the spec only says that the host loads memory). -/
def Obligations.PlacedWordIsRun : Prop :=
  ∀ (s : State) (nbits w : Nat) (i : Instr), s.mem.wf → s.cfg.wf →
    s.fetchPC.toNat + 10 ≤ s.cfg.memSize → decodeTableWord nbits w = some i →
    step (s.withFetchWord nbits w) = exec i (s.withFetchWord nbits w)

/-- The fetch address: the fallthrough of a mispredicted jump in M before the return address of a RET in W
before F.predPC; neither status is read (40_fetch.md R140, C11; that M.valA is the fallthrough is the spec's D12). -/
def Obligations.FetchAddressPriority : Prop :=
  ∀ s : State,
    (s.M.icode = .jxx → s.M.Cnd = false → s.fetchPC = s.M.valA) ∧
    (¬(s.M.icode = .jxx ∧ s.M.Cnd = false) → s.W.icode = .ret → s.fetchPC = s.W.valM) ∧
    (¬(s.M.icode = .jxx ∧ s.M.Cnd = false) → s.W.icode ≠ .ret → s.fetchPC = s.F.predPC)

/-- The fallthrough PC of every fetched instruction: f_pc + 1, + 1 with a register byte, + 8 with a constant,
modulo 2^64 (40_fetch.md R144). -/
def Obligations.FallthroughIsAddressPlusLength : Prop :=
  ∀ (i : Instr) (s : State), i.wf = true → s.running = true →
    ∃ t, exec i s = .next t ∧
      t.D.valP = s.fetchPC + 1 + (if Reference.needRegIds t.D.icode = true then 1 else 0) +
        (if Reference.needValC t.D.icode = true then 8 else 0)

/-- Every JXX, conditional or not, and CALL predict their constant; every other instruction, RET included,
predicts its fallthrough (40_fetch.md R148; C1, the spec's decision D1). -/
def Obligations.JumpsAndCallsPredictedTaken : Prop :=
  ∀ (i : Instr) (s : State), i.wf = true → s.running = true →
    ∃ t, exec i s = .next t ∧
      (t.D.icode = .jxx ∨ t.D.icode = .call → t.F.predPC = t.D.valC) ∧
      (t.D.icode ≠ .jxx → t.D.icode ≠ .call → t.F.predPC = t.D.valP)

/-- The status Fetch gives an instruction it could read: INS for the codes C to F, HLT for HALT, AOK for the
others, whatever the ifun (40_fetch.md R147; the spec's decisions D9, D10). -/
def Obligations.FetchStatusFromIcode : Prop :=
  ∀ (i : Instr) (s : State), i.wf = true → s.running = true →
    ∃ t, exec i s = .next t ∧
      (Reference.notInstruction t.D.icode = true → t.D.stat = .ins) ∧
      (t.D.icode = .halt → t.D.stat = .hlt) ∧
      (t.D.icode ≠ .halt → Reference.notInstruction t.D.icode = false → t.D.stat = .aok)

/-- The instruction fetched touches nothing but D and F.predPC in its fetch tick: whichever instruction is
fetched, everything else becomes the same (40_fetch.md, introduction; R150). -/
def Obligations.FetchedInstructionTouchesOnlyDAndPrediction : Prop :=
  ∀ (i j : Instr) (s t u : State), exec i s = .next t → exec j s = .next u →
    u = { t with D := u.D, F := u.F }

/-! ### The whole step -/

/-- The step of a running machine is the spec's own restatement of it as one function of the pipeline registers,
from raw bytes and icodes (43_memory_writeback.md R257 with 40_fetch.md R152, 41_decode.md R188, 42_execute.md
R213 and R238, which the spec derives from the stage rules). That the tick keeps the parameters, and final_stat
while the run goes on, is the model's choice (logs 1 and 9). -/
def Obligations.StepIsTheRestatedFunction : Prop :=
  ∀ s : State, s.running = true → step s = .next (Reference.step s)

/-- A tick has exactly one successor while running and none once stopped (43_memory_writeback.md R255; that
the model answers the fault `stopped` is log 8). -/
def Obligations.OneSuccessorExactlyWhileRunning : Prop :=
  ∀ s : State, (s.running = true → ∃ t, step s = .next t ∧ ∀ u, step s = .next u → u = t) ∧
    (s.running = false → ∀ t, step s ≠ .next t)

/-! ### Decode -/

/-- d_srcA (41_decode.md R170). -/
def Obligations.SourceATable : Prop :=
  ∀ s : State, s.running = true → ∃ t, step s = .next t ∧
    (s.D.icode ∈ [Icode.rrmovq, .rmmovq, .opq, .pushq] → t.E.srcA = s.D.rA) ∧
    (s.D.icode ∈ [Icode.popq, .ret] → t.E.srcA = some 4) ∧
    (s.D.icode ∈ [Icode.halt, .nop, .irmovq, .mrmovq, .jxx, .call, .codeC, .codeD, .codeE, .codeF] →
      t.E.srcA = none)

/-- d_srcB, d_dstE and d_dstM (41_decode.md R171 to R173: the Y86-64 tables, the spec's decision D34). -/
def Obligations.OtherRoleTables : Prop :=
  ∀ s : State, s.running = true → ∃ t, step s = .next t ∧
    (s.D.icode ∈ [Icode.opq, .rmmovq, .mrmovq] → t.E.srcB = s.D.rB) ∧
    (s.D.icode ∈ [Icode.pushq, .popq, .call, .ret] → t.E.srcB = some 4 ∧ t.E.dstE = some 4) ∧
    (s.D.icode ∉ [Icode.opq, .rmmovq, .mrmovq, .pushq, .popq, .call, .ret] → t.E.srcB = none) ∧
    (s.D.icode ∈ [Icode.rrmovq, .irmovq, .opq] → t.E.dstE = s.D.rB) ∧
    (s.D.icode ∉ [Icode.rrmovq, .irmovq, .opq, .pushq, .popq, .call, .ret] → t.E.dstE = none) ∧
    (s.D.icode ∈ [Icode.mrmovq, .popq] → t.E.dstM = s.D.rA) ∧
    (s.D.icode ∉ [Icode.mrmovq, .popq] → t.E.dstM = none)

/-- The operand values: RNONE gives 0; a register gives, first match wins, Execute's result of this same tick
(which the tick stages into M, so t.M.dstE and t.M.valE are e_dstE and e_valE), M's, W's, and last the
register file's at the start of the tick (41_decode.md R180, R182, R184). -/
def Obligations.ForwardingPriority : Prop :=
  ∀ s : State, s.running = true → ∃ t, step s = .next t ∧
    ∀ r v, Resolved s t r v →
      (r = none → v = 0) ∧
      ∀ n, r = some n →
        (t.M.dstE = some n → v = t.M.valE) ∧
        (t.M.dstE ≠ some n → s.M.dstE = some n → v = s.M.valE) ∧
        (t.M.dstE ≠ some n → s.M.dstE ≠ some n → s.W.dstE = some n → v = s.W.valE) ∧
        (t.M.dstE ≠ some n → s.M.dstE ≠ some n → s.W.dstE ≠ some n → v = s.x[n])

/-- CALL and JXX carry their fallthrough address in valA (41_decode.md R181: Y86-64's selection, the spec's
decision D12). -/
def Obligations.CallAndJumpCarryFallthrough : Prop :=
  ∀ s : State, s.running = true → s.D.icode = .call ∨ s.D.icode = .jxx →
    ∃ t, step s = .next t ∧ t.E.valA = s.D.valP

/-- Loaded values are never forwarded: whatever the loads in M and W carry, and whatever memory holds, Decode
stages the same (41_decode.md R183; the spec's decision D18). -/
def Obligations.LoadsAreNotForwarded : Prop :=
  ∀ s s' : State, s.running = true → forgetLoads s = forgetLoads s' →
    ∃ t t', step s = .next t ∧ step s' = .next t' ∧ t.E = t'.E

/-- Writeback's writes land at the clock edge: after the tick the destinations hold their values, while the same tick's
Decode reads the register file as it was, and sees a written valE only as the forwarding source W (41_decode.md R186,
43_memory_writeback.md R246, R248; that valM wins in a register that is both destinations is R250, the spec's decision
D23; that no status gates a write is R247, its decision D31; log 13). -/
def Obligations.DecodeReadsBeforeWriteback : Prop :=
  ∀ s : State, s.running = true → s.W.icode ≠ .halt → ∃ t, step s = .next t ∧
    (∀ n : Fin 16, s.W.dstM = some n → t.x[n] = s.W.valM) ∧
    (∀ n : Fin 16, s.W.dstE = some n → s.W.dstM ≠ some n → t.x[n] = s.W.valE) ∧
    ∀ r v n, Resolved s t r v → r = some n → t.M.dstE ≠ some n → s.M.dstE ≠ some n →
      (s.W.dstE = some n → v = s.W.valE) ∧ (s.W.dstE ≠ some n → v = s.x[n])

/-! ### Execute -/

/-- e_valE by icode: the ALU's operands and operator (42_execute.md R200 to R203; the zeros of the icodes the
source does not list and the selector numbers are the spec's D35, D1). -/
def Obligations.ExecuteResult : Prop :=
  ∀ s : State, s.running = true → ∃ t, step s = .next t ∧
    (s.E.icode = .rrmovq → t.M.valE = s.E.valA) ∧
    (s.E.icode = .irmovq → t.M.valE = s.E.valC) ∧
    (s.E.icode ∈ [Icode.rmmovq, .mrmovq] → t.M.valE = s.E.valB + s.E.valC) ∧
    (s.E.icode ∈ [Icode.call, .pushq] → t.M.valE = s.E.valB - 8) ∧
    (s.E.icode ∈ [Icode.ret, .popq] → t.M.valE = s.E.valB + 8) ∧
    (s.E.icode = .opq → s.E.ifun = 0 → t.M.valE = s.E.valB + s.E.valA) ∧
    (s.E.icode = .opq → s.E.ifun = 1 → t.M.valE = s.E.valB - s.E.valA) ∧
    (s.E.icode = .opq → s.E.ifun = 2 → t.M.valE = s.E.valB &&& s.E.valA) ∧
    (s.E.icode = .opq → s.E.ifun = 3 → t.M.valE = s.E.valB ^^^ s.E.valA) ∧
    (s.E.icode = .opq → 4 ≤ s.E.ifun.toNat → t.M.valE = 0) ∧
    (s.E.icode ∈ [Icode.halt, .nop, .jxx, .codeC, .codeD, .codeE, .codeF] → t.M.valE = 0)

/-- The condition codes: an OPQ in E sets ZF and SF from its result and OF exactly when the exact signed sum or
difference does not fit in 64 bits, false for the other operators; every other instruction leaves them, and no
status matters (42_execute.md R205, R206; OF of the other operators is the spec's D16, the clock edge D15, the ungated
write D31). -/
def Obligations.FlagsFromOperation : Prop :=
  ∀ s : State, s.running = true → ∃ t, step s = .next t ∧
    (s.E.icode ≠ .opq → t.cc = s.cc) ∧
    (s.E.icode = .opq →
      (t.cc.ZF = true ↔ t.M.valE = 0) ∧
      (t.cc.SF = true ↔ t.M.valE.toInt < 0) ∧
      (s.E.ifun = 0 → (t.cc.OF = true ↔ Overflows (s.E.valB.toInt + s.E.valA.toInt))) ∧
      (s.E.ifun = 1 → (t.cc.OF = true ↔ Overflows (s.E.valB.toInt - s.E.valA.toInt))) ∧
      (2 ≤ s.E.ifun.toNat → t.cc.OF = false))

/-- e_Cnd: the table of conditions over the flags at the start of the tick for RRMOVQ and JXX, false for NOP and
HALT, true for every other icode (42_execute.md R207 to R209; the table, the reserved selectors and the codes C
to F are the spec's D17, D26). -/
def Obligations.ConditionFromFlags : Prop :=
  ∀ s : State, s.running = true → ∃ t, step s = .next t ∧
    (s.E.icode = .rrmovq ∨ s.E.icode = .jxx →
      (conditionTable s.cc)[s.E.ifun.toNat]? = some t.M.Cnd) ∧
    (s.E.icode = .nop ∨ s.E.icode = .halt → t.M.Cnd = false) ∧
    (s.E.icode ∉ [Icode.rrmovq, .jxx, .nop, .halt] → t.M.Cnd = true)

/-- Destination nullification: a conditional move whose condition is false leaves Execute with dstE = RNONE;
every other instruction keeps its dstE; that is what is staged into M and what Decode's forwarding compares with in
the same tick (42_execute.md R211). -/
def Obligations.FalseMoveLosesDestination : Prop :=
  ∀ s : State, s.running = true → ∃ t, step s = .next t ∧
    (s.E.icode = .rrmovq → t.M.Cnd = false → t.M.dstE = none) ∧
    (s.E.icode = .rrmovq → t.M.Cnd = true → t.M.dstE = s.E.dstE) ∧
    (s.E.icode ≠ .rrmovq → t.M.dstE = s.E.dstE) ∧
    ∀ r v n, Resolved s t r v → r = some n →
      (t.M.dstE = some n → v = t.M.valE) ∧
      (t.M.dstE ≠ some n → s.M.dstE ≠ some n → s.W.dstE ≠ some n → v = s.x[n])

/-! ### Memory -/

/-- A load in M: MRMOVQ reads at valE, POPQ and RET at valA, the stack pointer before the increment (C3); the word
is little-endian, 0 with status ADR out of range; memory is unchanged (43_memory_writeback.md R230, R231,
R234; the byte order and the alignment parameter are the spec's D5, D7). -/
def Obligations.LoadReadsWord : Prop :=
  ∀ s : State, s.running = true → s.M.icode ∈ [Icode.mrmovq, .popq, .ret] →
    ∃ t, step s = .next t ∧ t.mem = s.mem ∧
      Loaded s.cfg s.mem (if s.M.icode = .mrmovq then s.M.valE else s.M.valA) t.W.valM ∧
      (InRange8 s.cfg (if s.M.icode = .mrmovq then s.M.valE else s.M.valA) →
        t.W.stat = s.M.stat) ∧
      (¬InRange8 s.cfg (if s.M.icode = .mrmovq then s.M.valE else s.M.valA) → t.W.stat = .adr)

/-- A store in M: RMMOVQ, PUSHQ and CALL write valA at valE, little-endian, every other byte as before; out of range
no byte is written and the status is ADR (43_memory_writeback.md R230, R232, R234; the spec's D5, D7, D27). -/
def Obligations.StoreWritesWord : Prop :=
  ∀ s : State, s.running = true → s.mem.wf → s.M.icode ∈ [Icode.rmmovq, .pushq, .call] →
    ∃ t, step s = .next t ∧ Stored s.cfg s.M.valE s.M.valA s.mem t.mem ∧ t.W.valM = 0 ∧
      (InRange8 s.cfg s.M.valE → t.W.stat = s.M.stat) ∧
      (¬InRange8 s.cfg s.M.valE → t.W.stat = .adr)

/-- Every other instruction neither reads nor writes memory, and a reader does not write nor a writer read
(43_memory_writeback.md R233). -/
def Obligations.OtherInstructionsLeaveMemory : Prop :=
  ∀ s : State, s.running = true → ∃ t, step s = .next t ∧
    (s.M.icode ∈ [Icode.halt, .nop, .rrmovq, .irmovq, .opq, .jxx, .codeC, .codeD, .codeE, .codeF] →
      t.mem = s.mem ∧ t.W.valM = 0) ∧
    (s.M.icode ∈ [Icode.mrmovq, .popq, .ret] → t.mem = s.mem) ∧
    (s.M.icode ∈ [Icode.rmmovq, .pushq, .call] → t.W.valM = 0)

/-- An MRMOVQ that follows a store (RMMOVQ, PUSHQ, CALL) of the same address at once reads the stored word
(20_memory.md R81, 70_reset_and_hazards.md R617, which the spec derives from R80). A POPQ or RET right behind a store
reads the stored word by `LoadReadsWord`, `StoreWritesWord` and `StepIsTheRestatedFunction`. -/
def Obligations.LoadAfterStoreReadsStored : Prop :=
  ∀ s : State, s.running = true → s.mem.wf → s.M.icode ∈ [Icode.rmmovq, .pushq, .call] →
    InRange8 s.cfg s.M.valE → s.E.icode = .mrmovq → s.E.valB + s.E.valC = s.M.valE →
    ∃ t, step s = .next t ∧ Next t fun u => u.W.valM = s.M.valA

/-! ### Writeback and the stop -/

/-- Writeback's register writes: none for HALT, which has no destination in any state of a run; otherwise dstE
receives valE and dstM receives valM, and every register that is neither keeps its value, whatever the status
(43_memory_writeback.md R246; that no status gates a write is R247, the spec's decision D31, log 13; for one register
in both roles see `PopToStackPointerKeepsLoadedWord`). -/
def Obligations.WritebackWritesDestinations : Prop :=
  ∀ s : State, s.running = true → ∃ t, step s = .next t ∧
    (s.W.icode = .halt → t.x = s.x) ∧
    (s.W.icode ≠ .halt → ∀ n : Fin 16,
      (s.W.dstE = some n → s.W.dstM ≠ some n → t.x[n] = s.W.valE) ∧
      (s.W.dstM = some n → s.W.dstE ≠ some n → t.x[n] = s.W.valM) ∧
      (s.W.dstE ≠ some n → s.W.dstM ≠ some n → t.x[n] = s.x[n])) ∧
    (s.Inv → s.W.icode = .halt → s.W.dstE = none ∧ s.W.dstM = none)

/-- One register in both roles: in a state the invariant allows it is RSP of a popq %rsp, and the loaded word is
what remains (43_memory_writeback.md R250, C6; the spec's decision D23). -/
def Obligations.PopToStackPointerKeepsLoadedWord : Prop :=
  ∀ (s : State) (n : Fin 16), s.Inv → s.running = true → s.W.dstE = some n → s.W.dstM = some n →
    s.W.icode = .popq ∧ n = 4 ∧
      ∃ t, step s = .next t ∧ t.x[n] = s.W.valM ∧ ∀ k : Fin 16, k ≠ n → t.x[k] = s.x[k]

/-- The stop: under HALT_ONLY exactly when W holds a HALT-coded instruction, under ANY_NON_AOK also when its status
is ADR or INS; the final status is W's. The stopping tick commits in full: but for the stop, a HALT in W commits what
a nop there would, and the policy changes nothing else (43_memory_writeback.md R245, R249, R252, R254; the policy and
the full last tick are the spec's D19; that final_stat keeps its value while the run goes on is log 9). -/
def Obligations.StopConditionAndFinalStatus : Prop :=
  ∀ s : State, s.running = true → ∃ t, step s = .next t ∧
    (t.running = false ↔ s.W.icode = .halt ∨
      (s.cfg.stopPolicy = .anyNonAok ∧ (s.W.stat = .adr ∨ s.W.stat = .ins))) ∧
    (t.running = false → t.finalStat = some s.W.stat) ∧
    (t.running = true → t.finalStat = s.finalStat) ∧
    (s.W.icode = .halt → s.W.dstE = none → s.W.dstM = none →
      ∃ u, step { s with W := { s.W with icode := .nop } } = .next u ∧
        t = { u with running := false, finalStat := some s.W.stat }) ∧
    ∃ u, step { s with cfg := { s.cfg with stopPolicy := .haltOnly } } = .next u ∧
      t = { u with cfg := s.cfg, running := t.running, finalStat := t.finalStat }

/-! ### Reset, invariants and isolation -/

/-- Reset: bubbles in D, E, M and W, F.predPC = RESET_PC, the host's registers, flags and memory, running and no
final status (70_reset_and_hazards.md R600: the spec's decisions D20 to D22); State.reset is that with the model's
parameters and initial contents (logs 2 to 6). -/
def Obligations.ResetState : Prop :=
  (∀ cfg rf cc m,
    (State.resetWith cfg rf cc m).F = ⟨cfg.resetPC⟩ ∧
    (State.resetWith cfg rf cc m).D = ⟨.aok, .nop, 0, none, none, 0, 0⟩ ∧
    (State.resetWith cfg rf cc m).E = ⟨.aok, .nop, 0, 0, 0, 0, none, none, none, none⟩ ∧
    (State.resetWith cfg rf cc m).M = ⟨.aok, .nop, false, 0, 0, none, none⟩ ∧
    (State.resetWith cfg rf cc m).W = ⟨.aok, .nop, 0, 0, none, none⟩ ∧
    (State.resetWith cfg rf cc m).x = rf ∧ (State.resetWith cfg rf cc m).cc = cc ∧
    (State.resetWith cfg rf cc m).mem = m ∧ (State.resetWith cfg rf cc m).cfg = cfg ∧
    (State.resetWith cfg rf cc m).running = true ∧
    (State.resetWith cfg rf cc m).finalStat = none) ∧
  State.reset = State.resetWith ⟨0x1000, false, false, .haltOnly, 0⟩ (Vector.replicate 16 0)
    ⟨true, false, false⟩ []

/-- From reset the first tick fetches at RESET_PC, and whatever four instructions are fetched first, the bubbles
ahead of them change nothing: the flags stay through two ticks, memory through three, the registers through
four, and the run goes on (70_reset_and_hazards.md R601, which the spec derives from R600 and R302; the bubbles are
its D20). -/
def Obligations.BubblesAfterResetChangeNothing : Prop :=
  ∀ cfg rf cc m (i1 i2 i3 i4 : Instr),
    (State.resetWith cfg rf cc m).fetchPC = cfg.resetPC ∧
    ∃ s1 s2 s3 s4, exec i1 (State.resetWith cfg rf cc m) = .next s1 ∧ exec i2 s1 = .next s2 ∧
      exec i3 s2 = .next s3 ∧ exec i4 s3 = .next s4 ∧
      s1.cc = cc ∧ s2.cc = cc ∧ s1.mem = m ∧ s2.mem = m ∧ s3.mem = m ∧
      s1.x = rf ∧ s2.x = rf ∧ s3.x = rf ∧ s4.x = rf ∧ s4.running = true

/-- The invariant holds after reset, for every legal memory the host loads. -/
def Obligations.InvariantAfterReset : Prop :=
  State.reset.Inv ∧
    ∀ cfg rf cc m, cfg.wf → m.wf → m.within cfg.memSize → (State.resetWith cfg rf cc m).Inv

/-- Every step keeps the invariant: memory canonical and within MEM_SIZE, each pipeline register holding what its
stage can stage (status, destinations, condition, loaded word by icode), no register 15 under REG_F_IS_NONE, a final
status exactly when stopped (60_exceptions.md R502, R503; 41_decode.md R174; 42_execute.md R209, R211;
43_memory_writeback.md R231, R233; 10_state.md R34, R58). -/
def Obligations.EveryStepKeepsInvariant : Prop :=
  ∀ s t : State, s.Inv → step s = .next t → t.Inv

/-- An instruction with an error status never accesses memory (43_memory_writeback.md R235, which the spec derives
from R230 to R233 and R146, R147). -/
def Obligations.ErroredInstructionNeverAccessesMemory : Prop :=
  ∀ s : State, s.Inv → s.running = true → s.M.stat ≠ .aok →
    ∃ t, step s = .next t ∧ t.mem = s.mem ∧ t.W.valM = 0 ∧ t.W.stat = s.M.stat

/-- No step changes the parameters, and under REG_F_IS_NONE no step changes register 15 (00_scope.md R8,
10_state.md R34: the spec's decision D4; the parameters as a field are log 1). -/
def Obligations.ParametersFixedAndRegister15Unnamed : Prop :=
  ∀ s t : State, step s = .next t → t.cfg = s.cfg ∧
    (s.Inv → s.cfg.regFIsNone = true → t.x[(15 : Fin 16)] = s.x[(15 : Fin 16)])

/-- A status has no effect on what any instruction does: under HALT_ONLY, states that differ only in the statuses
step to states that differ only in the statuses (60_exceptions.md R505; the spec's decisions D27, D31). -/
def Obligations.StatusHasNoEffect : Prop :=
  ∀ s s' : State, s.running = true → s.cfg.stopPolicy = .haltOnly → forgetStatus s = forgetStatus s' →
    ∃ t t', step s = .next t ∧ step s' = .next t' ∧ forgetStatus t = forgetStatus t'

/-- ifun is read only for RRMOVQ, OPQ and JXX: from D it is carried into E and changes nothing else, in E of any
other icode it changes nothing at all (30_encoding.md R108). -/
def Obligations.IfunReadOnlyForThreeIcodes : Prop :=
  ∀ (s : State) (f : Nibble),
    (∀ t, step s = .next t →
      step { s with D := { s.D with ifun := f } } = .next { t with E := { t.E with ifun := f } }) ∧
    (s.E.icode ∉ [Icode.rrmovq, .opq, .jxx] →
      step { s with E := { s.E with ifun := f } } = step s)

/-- E.srcA and E.srcB are carried and read by nothing (10_state.md R49, 70_reset_and_hazards.md R604; the spec's
decision D33). -/
def Obligations.SourceIdsInExecuteReadByNothing : Prop :=
  ∀ (s : State) (a b : RegId), step { s with E := { s.E with srcA := a, srcB := b } } = step s

/-! ### Instructions, from their fetch to Writeback -/

/-- Nothing in flight can stop the run, so an instruction completes: its fetch tick and four more all answer
(43_memory_writeback.md R256 and R620, which the spec derives from R252 and R151, its D18). -/
def Obligations.InstructionCompletesInFiveTicks : Prop :=
  ∀ (i : Instr) (s : State), s.running = true → s.NoStopAhead →
    ∃ s1 s2 s3 s4 s5, exec i s = .next s1 ∧ step s1 = .next s2 ∧ step s2 = .next s3 ∧
      step s3 = .next s4 ∧ step s4 = .next s5 ∧
      s1.running = true ∧ s2.running = true ∧ s3.running = true ∧ s4.running = true

/-- `halt` (44_misc_and_moves.md R301; the spec's D10, D19): status HLT, no operands, no flags, no memory, no
register; the run stops at the end of the tick in which it is in W, with final status HLT. -/
def Obligations.HaltStopsTheRun : Prop :=
  ∀ (s : State) (f : Nibble), s.running = true → ∃ s1, exec (.halt f) s = .next s1 ∧
    s1.D = ⟨.hlt, .halt, f, none, none, 0, s.fetchPC + 1⟩ ∧ s1.F.predPC = s.fetchPC + 1 ∧
    Next s1 fun s2 => s2.E = ⟨.hlt, .halt, f, 0, 0, 0, none, none, none, none⟩ ∧
    Next s2 fun s3 => s3.cc = s2.cc ∧ s3.M = ⟨.hlt, .halt, false, 0, 0, none, none⟩ ∧
    Next s3 fun s4 => s4.mem = s3.mem ∧ s4.W = ⟨.hlt, .halt, 0, 0, none, none⟩ ∧
    Next s4 fun s5 => s5.x = s4.x ∧ s5.running = false ∧ s5.finalStat = some .hlt

/-- `nop` (44_misc_and_moves.md R302; the numbering is the spec's D1): status AOK and no effect in any stage. -/
def Obligations.NopHasNoEffect : Prop :=
  ∀ (s : State) (f : Nibble), s.running = true → ∃ s1, exec (.nop f) s = .next s1 ∧
    s1.D = ⟨.aok, .nop, f, none, none, 0, s.fetchPC + 1⟩ ∧ s1.F.predPC = s.fetchPC + 1 ∧
    Next s1 fun s2 => s2.E = ⟨.aok, .nop, f, 0, 0, 0, none, none, none, none⟩ ∧
    Next s2 fun s3 => s3.cc = s2.cc ∧ s3.M = ⟨.aok, .nop, false, 0, 0, none, none⟩ ∧
    Next s3 fun s4 => s4.mem = s3.mem ∧ s4.W = ⟨.aok, .nop, 0, 0, none, none⟩ ∧
    Next s4 fun s5 => s5.x = s4.x ∧ s5.running = true

/-- A non-instruction byte (44_misc_and_moves.md R303; the spec's D9, D19, D26): status INS, no effect; the run
goes on under HALT_ONLY and stops with final status INS under ANY_NON_AOK. -/
def Obligations.NonInstructionDrainsWithoutEffect : Prop :=
  ∀ (s : State) (c f : Nibble), s.running = true → 12 ≤ c.toNat →
    ∃ s1, exec (.nonInstruction c f) s = .next s1 ∧
    s1.D = ⟨.ins, .ofNibble c, f, none, none, 0, s.fetchPC + 1⟩ ∧ s1.F.predPC = s.fetchPC + 1 ∧
    Next s1 fun s2 => s2.E = ⟨.ins, .ofNibble c, f, 0, 0, 0, none, none, none, none⟩ ∧
    Next s2 fun s3 => s3.cc = s2.cc ∧ s3.M = ⟨.ins, .ofNibble c, true, 0, 0, none, none⟩ ∧
    Next s3 fun s4 => s4.mem = s3.mem ∧ s4.W = ⟨.ins, .ofNibble c, 0, 0, none, none⟩ ∧
    Next s4 fun s5 => s5.x = s4.x ∧
      (s.cfg.stopPolicy = .haltOnly → s5.running = true) ∧
      (s.cfg.stopPolicy = .anyNonAok → s5.running = false ∧ s5.finalStat = some .ins)

/-- rrmovq, the six conditional moves and the reserved ones (44_misc_and_moves.md R304 to R311; the conditions are
the spec's D17): the value of rA that Decode resolves goes to rB when the condition holds on the flags at the
start of the Execute tick; otherwise nothing is written. No flag, no memory. -/
def Obligations.MovesWriteWhenConditionHolds : Prop :=
  ∀ (s : State) (rA rB : Nibble), ∀ p ∈ moves rA rB, s.running = true →
    ∃ s1, exec p.1 s = .next s1 ∧
    s1.D = ⟨.aok, .rrmovq, p.2.1, regOf s.cfg rA, regOf s.cfg rB, 0, s.fetchPC + 2⟩ ∧
    s1.F.predPC = s.fetchPC + 2 ∧
    Next s1 fun s2 =>
      s2.E = ⟨.aok, .rrmovq, p.2.1, 0, s1.operand (regOf s.cfg rA), 0, regOf s.cfg rB, none,
        regOf s.cfg rA, none⟩ ∧
    Next s2 fun s3 => s3.cc = s2.cc ∧
      s3.M = ⟨.aok, .rrmovq, p.2.2 s2.cc, s1.operand (regOf s.cfg rA), s1.operand (regOf s.cfg rA),
        if p.2.2 s2.cc = true then regOf s.cfg rB else none, none⟩ ∧
    Next s3 fun s4 => s4.mem = s3.mem ∧ s4.W.stat = .aok ∧
    Next s4 fun s5 => s5.running = true ∧
      s5.x = if p.2.2 s2.cc = true
        then writeReg s4.x (regOf s.cfg rB) (s1.operand (regOf s.cfg rA)) else s4.x

/-- `irmovq V, rB` (44_misc_and_moves.md R312): x[rB] receives V at full width; no flag, no memory, whatever the rA
nibble and the ifun. -/
def Obligations.IrmovqWritesConstant : Prop :=
  ∀ (s : State) (f rA rB : Nibble) (V : Word), s.running = true →
    ∃ s1, exec (.irmovq f rA rB V) s = .next s1 ∧
    s1.D = ⟨.aok, .irmovq, f, regOf s.cfg rA, regOf s.cfg rB, V, s.fetchPC + 10⟩ ∧
    s1.F.predPC = s.fetchPC + 10 ∧
    Next s1 fun s2 => s2.E = ⟨.aok, .irmovq, f, V, 0, 0, regOf s.cfg rB, none, none, none⟩ ∧
    Next s2 fun s3 => s3.cc = s2.cc ∧ s3.M = ⟨.aok, .irmovq, true, V, 0, regOf s.cfg rB, none⟩ ∧
    Next s3 fun s4 => s4.mem = s3.mem ∧ s4.W = ⟨.aok, .irmovq, V, 0, regOf s.cfg rB, none⟩ ∧
    Next s4 fun s5 => s5.running = true ∧ s5.x = writeReg s4.x (regOf s.cfg rB) V

/-- `rmmovq rA, D(rB)` (44_misc_and_moves.md R313; the spec's D5, D7, D27): stores the value of rA at x[rB] + D, all
other bytes as before; out of range nothing is stored and the status is ADR. No flag, no register. -/
def Obligations.RmmovqStores : Prop :=
  ∀ (s : State) (f rA rB : Nibble) (D : Word), s.running = true → s.mem.wf →
    ∃ s1, exec (.rmmovq f rA rB D) s = .next s1 ∧
    s1.D = ⟨.aok, .rmmovq, f, regOf s.cfg rA, regOf s.cfg rB, D, s.fetchPC + 10⟩ ∧
    s1.F.predPC = s.fetchPC + 10 ∧
    Next s1 fun s2 =>
      s2.E = ⟨.aok, .rmmovq, f, D, s1.operand (regOf s.cfg rA), s1.operand (regOf s.cfg rB), none,
        none, regOf s.cfg rA, regOf s.cfg rB⟩ ∧
    Next s2 fun s3 => s3.cc = s2.cc ∧
      s3.M = ⟨.aok, .rmmovq, true, s1.operand (regOf s.cfg rB) + D, s1.operand (regOf s.cfg rA),
        none, none⟩ ∧
    Next s3 fun s4 =>
      Stored s.cfg (s1.operand (regOf s.cfg rB) + D) (s1.operand (regOf s.cfg rA)) s3.mem s4.mem ∧
      AccessStat s.cfg (s1.operand (regOf s.cfg rB) + D) s4.W.stat ∧
    Next s4 fun s5 => s5.x = s4.x

/-- `mrmovq D(rB), rA` (44_misc_and_moves.md R314; the spec's D5, D7, D31): x[rA] receives the word at x[rB] + D, or 0
with status ADR out of range. No flag, no memory change. -/
def Obligations.MrmovqLoads : Prop :=
  ∀ (s : State) (f rA rB : Nibble) (D : Word), s.running = true →
    ∃ s1, exec (.mrmovq f rA rB D) s = .next s1 ∧
    s1.D = ⟨.aok, .mrmovq, f, regOf s.cfg rA, regOf s.cfg rB, D, s.fetchPC + 10⟩ ∧
    s1.F.predPC = s.fetchPC + 10 ∧
    Next s1 fun s2 =>
      s2.E = ⟨.aok, .mrmovq, f, D, 0, s1.operand (regOf s.cfg rB), none, regOf s.cfg rA, none,
        regOf s.cfg rB⟩ ∧
    Next s2 fun s3 => s3.cc = s2.cc ∧
      s3.M = ⟨.aok, .mrmovq, true, s1.operand (regOf s.cfg rB) + D, 0, none, regOf s.cfg rA⟩ ∧
    Next s3 fun s4 => s4.mem = s3.mem ∧
      Loaded s.cfg s3.mem (s1.operand (regOf s.cfg rB) + D) s4.W.valM ∧
      AccessStat s.cfg (s1.operand (regOf s.cfg rB) + D) s4.W.stat ∧
    Next s4 fun s5 => s5.x = writeReg s4.x (regOf s.cfg rA) s4.W.valM

/-- addq, subq, andq, xorq and the reserved ALU operations (45_alu.md R340 to R345; the OF of the logical and
reserved operators is the spec's D16, the reserved result D9): the result goes to rB, the flags are set from it at
the end of the Execute tick. No memory. -/
def Obligations.OperationsWriteResultAndFlags : Prop :=
  ∀ (s : State) (rA rB : Nibble), ∀ p ∈ operations rA rB, s.running = true →
    ∃ s1, exec p.1 s = .next s1 ∧
    s1.D = ⟨.aok, .opq, p.2.1, regOf s.cfg rA, regOf s.cfg rB, 0, s.fetchPC + 2⟩ ∧
    s1.F.predPC = s.fetchPC + 2 ∧
    Next s1 fun s2 =>
      s2.E = ⟨.aok, .opq, p.2.1, 0, s1.operand (regOf s.cfg rA), s1.operand (regOf s.cfg rB),
        regOf s.cfg rB, none, regOf s.cfg rA, regOf s.cfg rB⟩ ∧
    Next s2 fun s3 =>
      (s3.cc.ZF = true ↔
        p.2.2.1 (s1.operand (regOf s.cfg rA)) (s1.operand (regOf s.cfg rB)) = 0) ∧
      s3.cc.SF = (p.2.2.1 (s1.operand (regOf s.cfg rA)) (s1.operand (regOf s.cfg rB))).msb ∧
      s3.cc.OF = p.2.2.2 (s1.operand (regOf s.cfg rA)) (s1.operand (regOf s.cfg rB)) ∧
      s3.M = ⟨.aok, .opq, true,
        p.2.2.1 (s1.operand (regOf s.cfg rA)) (s1.operand (regOf s.cfg rB)),
        s1.operand (regOf s.cfg rA), regOf s.cfg rB, none⟩ ∧
    Next s3 fun s4 => s4.mem = s3.mem ∧ s4.W.stat = .aok ∧
    Next s4 fun s5 => s5.running = true ∧
      s5.x = writeReg s4.x (regOf s.cfg rB)
        (p.2.2.1 (s1.operand (regOf s.cfg rA)) (s1.operand (regOf s.cfg rB)))

/-- jmp, the six conditional jumps and the reserved ones (46_control.md R370 to R378; the conditions are the spec's
D17, the carried fallthrough D12): Dest is fetched next, unless an older instruction redirects; three ticks after
its fetch the fallthrough is fetched when the condition failed on the flags at the start of the Execute tick. No
flag, no memory, no register. -/
def Obligations.JumpsRedirectFetch : Prop :=
  ∀ (s : State) (Dest : Word), ∀ p ∈ jumps Dest, s.running = true →
    ∃ s1, exec p.1 s = .next s1 ∧
    s1.D = ⟨.aok, .jxx, p.2.1, none, none, Dest, s.fetchPC + 9⟩ ∧ s1.F.predPC = Dest ∧
    (¬(s1.M.icode = .jxx ∧ s1.M.Cnd = false) → s1.W.icode ≠ .ret → s1.fetchPC = Dest) ∧
    Next s1 fun s2 => s2.E = ⟨.aok, .jxx, p.2.1, Dest, s.fetchPC + 9, 0, none, none, none, none⟩ ∧
    Next s2 fun s3 => s3.cc = s2.cc ∧
      s3.M = ⟨.aok, .jxx, p.2.2 s2.cc, 0, s.fetchPC + 9, none, none⟩ ∧
      (p.2.2 s2.cc = false → s3.fetchPC = s.fetchPC + 9) ∧
      (p.2.2 s2.cc = true → s3.W.icode ≠ .ret → s3.fetchPC = s3.F.predPC) ∧
    Next s3 fun s4 => s4.mem = s3.mem ∧ s4.W = ⟨.aok, .jxx, 0, 0, none, none⟩ ∧
    Next s4 fun s5 => s5.x = s4.x ∧ s5.running = true

/-- `call Dest` (46_control.md R379; the return address in valA, the byte order and the unwritten failed store are the
spec's D12, D5, D27): RSP is decremented by 8, the address pc + 9 is stored there, Dest is predicted; out of range
nothing is stored and the status is ADR. No flag. -/
def Obligations.CallPushesReturnAddress : Prop :=
  ∀ (s : State) (f : Nibble) (Dest : Word), s.running = true → s.mem.wf →
    ∃ s1, exec (.call f Dest) s = .next s1 ∧
    s1.D = ⟨.aok, .call, f, none, none, Dest, s.fetchPC + 9⟩ ∧ s1.F.predPC = Dest ∧
    Next s1 fun s2 =>
      s2.E = ⟨.aok, .call, f, Dest, s.fetchPC + 9, s1.operand (some 4), some 4, none, none,
        some 4⟩ ∧
    Next s2 fun s3 => s3.cc = s2.cc ∧
      s3.M = ⟨.aok, .call, true, s1.operand (some 4) - 8, s.fetchPC + 9, some 4, none⟩ ∧
    Next s3 fun s4 => Stored s.cfg (s1.operand (some 4) - 8) (s.fetchPC + 9) s3.mem s4.mem ∧
      AccessStat s.cfg (s1.operand (some 4) - 8) s4.W.stat ∧
    Next s4 fun s5 => s5.x = writeReg s4.x (some 4) (s1.operand (some 4) - 8)

/-- `ret` (46_control.md R380, C3; the spec's D18, D31): not predicted; the word at RSP, before the increment, is read
in its Memory tick, 0 with status ADR out of range; in its Writeback tick it is the fetch address, unless a
mispredicted jump is in M; RSP receives RSP + 8. No flag, no memory change. -/
def Obligations.RetFetchesPoppedAddress : Prop :=
  ∀ (s : State) (f : Nibble), s.running = true → ∃ s1, exec (.ret f) s = .next s1 ∧
    s1.D = ⟨.aok, .ret, f, none, none, 0, s.fetchPC + 1⟩ ∧ s1.F.predPC = s.fetchPC + 1 ∧
    Next s1 fun s2 =>
      s2.E = ⟨.aok, .ret, f, 0, s1.operand (some 4), s1.operand (some 4), some 4, none, some 4,
        some 4⟩ ∧
    Next s2 fun s3 => s3.cc = s2.cc ∧
      s3.M = ⟨.aok, .ret, true, s1.operand (some 4) + 8, s1.operand (some 4), some 4, none⟩ ∧
    Next s3 fun s4 => s4.mem = s3.mem ∧
      Loaded s.cfg s3.mem (s1.operand (some 4)) s4.W.valM ∧
      AccessStat s.cfg (s1.operand (some 4)) s4.W.stat ∧
      (¬(s4.M.icode = .jxx ∧ s4.M.Cnd = false) → s4.fetchPC = s4.W.valM) ∧
      (s4.M.icode = .jxx → s4.M.Cnd = false → s4.fetchPC = s4.M.valA) ∧
    Next s4 fun s5 => s5.x = writeReg s4.x (some 4) (s1.operand (some 4) + 8)

/-- `pushq rA` (47_stack.md R410; the spec's D27, D31, D34): stores the value of rA at RSP - 8 and RSP receives RSP - 8,
for pushq %rsp the old RSP; out of range nothing is stored and the status is ADR. No flag. -/
def Obligations.PushqStoresAndDecrements : Prop :=
  ∀ (s : State) (f rA rB : Nibble), s.running = true → s.mem.wf →
    ∃ s1, exec (.pushq f rA rB) s = .next s1 ∧
    s1.D = ⟨.aok, .pushq, f, regOf s.cfg rA, regOf s.cfg rB, 0, s.fetchPC + 2⟩ ∧
    s1.F.predPC = s.fetchPC + 2 ∧
    Next s1 fun s2 =>
      s2.E = ⟨.aok, .pushq, f, 0, s1.operand (regOf s.cfg rA), s1.operand (some 4), some 4, none,
        regOf s.cfg rA, some 4⟩ ∧
    Next s2 fun s3 => s3.cc = s2.cc ∧
      s3.M = ⟨.aok, .pushq, true, s1.operand (some 4) - 8, s1.operand (regOf s.cfg rA), some 4,
        none⟩ ∧
    Next s3 fun s4 =>
      Stored s.cfg (s1.operand (some 4) - 8) (s1.operand (regOf s.cfg rA)) s3.mem s4.mem ∧
      AccessStat s.cfg (s1.operand (some 4) - 8) s4.W.stat ∧
    Next s4 fun s5 => s5.x = writeReg s4.x (some 4) (s1.operand (some 4) - 8)

/-- `popq rA` (47_stack.md R411, C3; the spec's D23, D31, D34): x[rA] receives the word at RSP, before the increment, 0
with status ADR out of range; RSP receives RSP + 8, but for popq %rsp, where the loaded word remains. No flag, no
memory change. -/
def Obligations.PopqLoadsAndIncrements : Prop :=
  ∀ (s : State) (f rA rB : Nibble), s.running = true →
    ∃ s1, exec (.popq f rA rB) s = .next s1 ∧
    s1.D = ⟨.aok, .popq, f, regOf s.cfg rA, regOf s.cfg rB, 0, s.fetchPC + 2⟩ ∧
    s1.F.predPC = s.fetchPC + 2 ∧
    Next s1 fun s2 =>
      s2.E = ⟨.aok, .popq, f, 0, s1.operand (some 4), s1.operand (some 4), some 4, regOf s.cfg rA,
        some 4, some 4⟩ ∧
    Next s2 fun s3 => s3.cc = s2.cc ∧
      s3.M = ⟨.aok, .popq, true, s1.operand (some 4) + 8, s1.operand (some 4), some 4,
        regOf s.cfg rA⟩ ∧
    Next s3 fun s4 => s4.mem = s3.mem ∧
      Loaded s.cfg s3.mem (s1.operand (some 4)) s4.W.valM ∧
      AccessStat s.cfg (s1.operand (some 4)) s4.W.stat ∧
    Next s4 fun s5 => ∀ n : Fin 16,
      (regOf s.cfg rA = some n → s5.x[n] = s4.W.valM) ∧
      (regOf s.cfg rA ≠ some n → n = 4 → s5.x[n] = s1.operand (some 4) + 8) ∧
      (regOf s.cfg rA ≠ some n → n ≠ 4 → s5.x[n] = s4.x[n])

/-! ### The pipeline against the sequential reading -/

/-- A lone instruction has exactly its Effect line's effect: fetched into an idle pipeline and followed by four
nops, it leaves the registers, flags and memory its rule gives and nothing else changed, its status in W is the one
its rule gives, and that status alone decides whether the run goes on (44_misc_and_moves.md R300 and the Effect
lines of R301 to R411; 43_memory_writeback.md R249). -/
def Obligations.LoneInstructionHasItsEffect : Prop :=
  ∀ (i : Instr) (s : State), i.wf = true → s.running = true → s.Idle →
    ∃ s4 t, feed [i, .nop 0, .nop 0, .nop 0] s = .next s4 ∧ exec (.nop 0) s4 = .next t ∧
      t.arch = (effect s.cfg s.fetchPC i s.arch).arch ∧
      s4.W.stat = (effect s.cfg s.fetchPC i s.arch).stat ∧ t.Idle ∧
      (t.running = true ↔ (effect s.cfg s.fetchPC i s.arch).stat ≠ .hlt ∧
        (s.cfg.stopPolicy = .anyNonAok → (effect s.cfg s.fetchPC i s.arch).stat = .aok))

/-- The frame of every instruction: letting everything in flight complete with the instruction fetched and without it,
the two outcomes differ in no register but its destinations, in no flag unless it is an OPQ, in no byte of memory but
the eight at the address it stores to (in none when it stores nothing), and in no parameter
(43_memory_writeback.md R232, R233, R246; 10_state.md R41; 41_decode.md R174; that a failed store writes no byte is
the spec's D27). -/
def Obligations.InstructionFrame : Prop :=
  ∀ (i : Instr) (s : State), i.wf = true → s.running = true → s.NoStopAhead → s.mem.wf →
    ∃ s1 t u, exec i s = .next s1 ∧ feed fourNops s1 = .next t ∧ feed fourNops s = .next u ∧
      (∀ n : Fin 16, some n ∉ destinations s.cfg i → t.x[n] = u.x[n]) ∧
      (isOperation i = false → t.cc = u.cc) ∧
      (∀ a, storeAddress s1 i = some a →
        ∀ b, b < a.toNat ∨ a.toNat + 8 ≤ b → t.mem.get b = u.mem.get b) ∧
      (storeAddress s1 i = none → ∀ b, t.mem.get b = u.mem.get b) ∧
      t.cfg = s.cfg ∧ u.cfg = s.cfg

/-- The address its Effect line gives a lone instruction's successor is the address fetched: in the next tick for
every instruction but RET and a jump whose condition is false, in the tick after its Memory stage for RET, and in
the tick in which it is in M for such a jump (40_fetch.md R140, R148, the spec's D12 and D1; the "next" of R301 to R411). -/
def Obligations.LoneInstructionResolvesNextAddress : Prop :=
  ∀ (i : Instr) (s : State), i.wf = true → s.running = true → s.Idle →
    ∃ s1 s3 s4, feed [i] s = .next s1 ∧ feed [.nop 0, .nop 0] s1 = .next s3 ∧
      exec (.nop 0) s3 = .next s4 ∧
      (s1.D.icode = .ret → s4.fetchPC = (effect s.cfg s.fetchPC i s.arch).next) ∧
      (s1.D.icode = .jxx → s3.M.Cnd = false →
        s3.fetchPC = (effect s.cfg s.fetchPC i s.arch).next) ∧
      (s1.D.icode ≠ .ret → (s1.D.icode = .jxx → s3.M.Cnd = true) →
        s1.fetchPC = (effect s.cfg s.fetchPC i s.arch).next)

/-- The pipeline is the sequential machine wherever no load-use hazard is (under HALT_ONLY, no HALT in flight): fetching one more instruction and letting
everything in flight complete gives the same registers, flags and memory as letting everything in flight complete
first and then applying the instruction's Effect line (70_reset_and_hazards.md R606, R611, R617, R619: derived by
the spec from the stage rules; R618 (1) is the hypothesis on loads). -/
def Obligations.PipelineIsSequentialWithoutLoadUse : Prop :=
  ∀ (i : Instr) (s : State), i.wf = true → s.running = true → s.NoStopAhead → ¬LoadUse s i →
    ∃ t u, feed (i :: fourNops) s = .next t ∧ feed fourNops s = .next u ∧
      t.arch = (effect s.cfg s.fetchPC i u.arch).arch
end

