-- ==== Sys2Proof/Laws/State.lean ====
section
/-! SUPPORT. The small lemmas of the state: one per field per update, each true by unfolding once, so that no
proof unfolds a record update again. -/

namespace Sys2Proof.Machine

variable (s : State) (f : Fetched) (nbits w : Nat)

/-! ### A tick -/

@[simp] theorem State.tick_cfg : (s.tick f).cfg = s.cfg := rfl
@[simp] theorem State.tick_x : (s.tick f).x = nextX s.W s.x := rfl
@[simp] theorem State.tick_cc : (s.tick f).cc = nextCC s.E s.cc := rfl
@[simp] theorem State.tick_mem : (s.tick f).mem = nextMem s.cfg s.mem (accessOf s.M) := rfl
@[simp] theorem State.tick_F : (s.tick f).F = ⟨f.predPC⟩ := rfl
@[simp] theorem State.tick_D : (s.tick f).D = f.toD := rfl
@[simp] theorem State.tick_E : (s.tick f).E = nextE s.D s.E s.M s.W s.cc s.x := rfl
@[simp] theorem State.tick_M : (s.tick f).M = nextM s.E s.cc := rfl
@[simp] theorem State.tick_W : (s.tick f).W = nextW s.cfg s.M s.mem := rfl
@[simp] theorem State.tick_running : (s.tick f).running = !stopsRun s.cfg.stopPolicy s.W := rfl
@[simp] theorem State.tick_finalStat :
    (s.tick f).finalStat = if stopsRun s.cfg.stopPolicy s.W then some s.W.stat else s.finalStat := rfl

/-! ### Fetch's packet into D -/

@[simp] theorem Fetched.toD_stat : f.toD.stat = f.stat := rfl
@[simp] theorem Fetched.toD_icode : f.toD.icode = f.icode := rfl
@[simp] theorem Fetched.toD_ifun : f.toD.ifun = f.ifun := rfl
@[simp] theorem Fetched.toD_rA : f.toD.rA = f.rA := rfl
@[simp] theorem Fetched.toD_rB : f.toD.rB = f.rB := rfl
@[simp] theorem Fetched.toD_valC : f.toD.valC = f.valC := rfl
@[simp] theorem Fetched.toD_valP : f.toD.valP = f.valP := rfl

/-! ### Decode into E -/

section
variable (D : DReg) (E : EReg) (M : MReg) (W : WReg) (cc : CC) (x : RegFile)

@[simp] theorem nextE_stat : (nextE D E M W cc x).stat = D.stat := rfl
@[simp] theorem nextE_icode : (nextE D E M W cc x).icode = D.icode := rfl
@[simp] theorem nextE_ifun : (nextE D E M W cc x).ifun = D.ifun := rfl
@[simp] theorem nextE_valC : (nextE D E M W cc x).valC = D.valC := rfl
@[simp] theorem nextE_valA : (nextE D E M W cc x).valA = dValA D E M W cc x := rfl
@[simp] theorem nextE_valB : (nextE D E M W cc x).valB = dValB D E M W cc x := rfl
@[simp] theorem nextE_dstE : (nextE D E M W cc x).dstE = dstEOf D.icode D.rB := rfl
@[simp] theorem nextE_dstM : (nextE D E M W cc x).dstM = dstMOf D.icode D.rA := rfl
@[simp] theorem nextE_srcA : (nextE D E M W cc x).srcA = srcAOf D.icode D.rA := rfl
@[simp] theorem nextE_srcB : (nextE D E M W cc x).srcB = srcBOf D.icode D.rB := rfl

/-! ### Execute into M -/

@[simp] theorem nextM_stat : (nextM E cc).stat = E.stat := rfl
@[simp] theorem nextM_icode : (nextM E cc).icode = E.icode := rfl
@[simp] theorem nextM_Cnd : (nextM E cc).Cnd = eCndOf E cc := rfl
@[simp] theorem nextM_valE : (nextM E cc).valE = eValE E := rfl
@[simp] theorem nextM_valA : (nextM E cc).valA = E.valA := rfl
@[simp] theorem nextM_dstE : (nextM E cc).dstE = eDstE E cc := rfl
@[simp] theorem nextM_dstM : (nextM E cc).dstM = E.dstM := rfl

/-! ### Memory into W -/

variable (cfg : Config) (mem : Memory)

@[simp] theorem nextW_stat :
    (nextW cfg M mem).stat = M.stat.escalate (accessOk cfg (accessOf M)) := rfl
@[simp] theorem nextW_icode : (nextW cfg M mem).icode = M.icode := rfl
@[simp] theorem nextW_valE : (nextW cfg M mem).valE = M.valE := rfl
@[simp] theorem nextW_valM : (nextW cfg M mem).valM = mValM cfg mem (accessOf M) := rfl
@[simp] theorem nextW_dstE : (nextW cfg M mem).dstE = M.dstE := rfl
@[simp] theorem nextW_dstM : (nextW cfg M mem).dstM = M.dstM := rfl

end

/-! ### Reset -/

section
variable (cfg : Config) (rf : RegFile) (cc : CC) (m : Memory)

@[simp] theorem State.resetWith_cfg : (State.resetWith cfg rf cc m).cfg = cfg := rfl
@[simp] theorem State.resetWith_x : (State.resetWith cfg rf cc m).x = rf := rfl
@[simp] theorem State.resetWith_cc : (State.resetWith cfg rf cc m).cc = cc := rfl
@[simp] theorem State.resetWith_mem : (State.resetWith cfg rf cc m).mem = m := rfl
@[simp] theorem State.resetWith_F : (State.resetWith cfg rf cc m).F = ⟨cfg.resetPC⟩ := rfl
@[simp] theorem State.resetWith_D : (State.resetWith cfg rf cc m).D = .bubble := rfl
@[simp] theorem State.resetWith_E : (State.resetWith cfg rf cc m).E = .bubble := rfl
@[simp] theorem State.resetWith_M : (State.resetWith cfg rf cc m).M = .bubble := rfl
@[simp] theorem State.resetWith_W : (State.resetWith cfg rf cc m).W = .bubble := rfl
@[simp] theorem State.resetWith_running : (State.resetWith cfg rf cc m).running = true := rfl
@[simp] theorem State.resetWith_finalStat : (State.resetWith cfg rf cc m).finalStat = none := rfl

end

/-! ### The host's placement of an instruction -/

@[simp] theorem State.withFetchWord_cfg : (s.withFetchWord nbits w).cfg = s.cfg := rfl
@[simp] theorem State.withFetchWord_x : (s.withFetchWord nbits w).x = s.x := rfl
@[simp] theorem State.withFetchWord_cc : (s.withFetchWord nbits w).cc = s.cc := rfl
@[simp] theorem State.withFetchWord_mem :
    (s.withFetchWord nbits w).mem = writeInRange s.cfg s.mem s.fetchPC (tableBytes nbits w) := rfl
@[simp] theorem State.withFetchWord_F : (s.withFetchWord nbits w).F = s.F := rfl
@[simp] theorem State.withFetchWord_D : (s.withFetchWord nbits w).D = s.D := rfl
@[simp] theorem State.withFetchWord_E : (s.withFetchWord nbits w).E = s.E := rfl
@[simp] theorem State.withFetchWord_M : (s.withFetchWord nbits w).M = s.M := rfl
@[simp] theorem State.withFetchWord_W : (s.withFetchWord nbits w).W = s.W := rfl
@[simp] theorem State.withFetchWord_running : (s.withFetchWord nbits w).running = true := rfl
@[simp] theorem State.withFetchWord_finalStat :
    (s.withFetchWord nbits w).finalStat = s.finalStat := rfl
@[simp] theorem State.withFetchWord_fetchPC :
    (s.withFetchWord nbits w).fetchPC = s.fetchPC := rfl

/-! ### The architectural part -/

@[simp] theorem State.arch_x : s.arch.x = s.x := rfl
@[simp] theorem State.arch_cc : s.arch.cc = s.cc := rfl
@[simp] theorem State.arch_mem : s.arch.mem = s.mem := rfl

end Sys2Proof.Machine
end

