-- ==== Sys2Proof/Laws/Memory.lean ====
section
/-! SUPPORT. The memory store: what a byte reads as after each operation, and that every operation keeps the
canonical form and the bound MEM_SIZE. -/

namespace Sys2Proof.Machine

/-! ### One byte -/

@[simp] theorem Memory.get_nil (a : Nat) : Memory.get [] a = Memory.unlisted := rfl

theorem Memory.get_eq_unlisted {m : Memory} {a : Nat} (h : ∀ p ∈ m, p.1 ≠ a) :
    m.get a = Memory.unlisted := by
  induction m with
  | nil => rfl
  | cons p rest ih =>
    obtain ⟨k, b⟩ := p
    have hk : a ≠ k := fun e => h (k, b) (by simp) e.symm
    simpa [Memory.get, hk] using ih fun q hq => h q (by simp [hq])

/-- What a byte reads as after `cons`, when the tail lists nothing at the new address. -/
theorem Memory.get_cons {m : Memory} {a : Nat} {v : Byte} (h : ∀ p ∈ m, p.1 ≠ a) (b : Nat) :
    (Memory.cons a v m).get b = if b = a then v else m.get b := by
  unfold Memory.cons
  split
  · split
    · subst_vars; exact Memory.get_eq_unlisted h
    · rfl
  · rfl

/-- A write is read back at its address and seen nowhere else. -/
theorem Memory.get_set {m : Memory} (hm : m.wf) (a : Nat) (v : Byte) (b : Nat) :
    (m.set a v).get b = if b = a then v else m.get b := by
  obtain ⟨hs, -⟩ := hm
  induction m with
  | nil => simpa [Memory.set] using Memory.get_cons (m := []) (by simp) b
  | cons p rest ih =>
    obtain ⟨k, c⟩ := p
    obtain ⟨hk, hrest⟩ := List.pairwise_cons.1 hs
    simp only [Memory.set]
    split
    next hlt =>
      refine Memory.get_cons (fun q hq => ?_) b
      rcases List.mem_cons.1 hq with rfl | hq
      · simp; omega
      · have := hk q hq; simp at this; omega
    next =>
      split
      next heq =>
        subst heq
        rw [Memory.get_cons fun q hq => (hk q hq).ne']
        simp only [Memory.get]
        split <;> rfl
      next hne =>
        simp only [Memory.get, ih hrest]
        split
        · subst_vars; rw [if_neg (Ne.symm hne)]
        · rfl

/-- Two canonical memories that read the same everywhere are the same list. -/
theorem Memory.ext_get {m m' : Memory} (hm : m.wf) (hm' : m'.wf) (h : ∀ a, m.get a = m'.get a) :
    m = m' := by
  induction m generalizing m' with
  | nil =>
    cases m' with
    | nil => rfl
    | cons p rest =>
      have := h p.1
      simp [Memory.get] at this
      exact absurd this.symm (hm'.2 p (by simp))
  | cons p rest ih =>
    obtain ⟨k, b⟩ := p
    cases m' with
    | nil =>
      have := h k
      simp [Memory.get] at this
      exact absurd this (hm.2 (k, b) (by simp))
    | cons p' rest' =>
      obtain ⟨k', b'⟩ := p'
      obtain ⟨hs, hn⟩ := hm
      obtain ⟨hs', hn'⟩ := hm'
      obtain ⟨hk, hrest⟩ := List.pairwise_cons.1 hs
      obtain ⟨hk', hrest'⟩ := List.pairwise_cons.1 hs'
      have hlow : ∀ a, a ≤ k → Memory.get rest a = Memory.unlisted := fun a ha =>
        Memory.get_eq_unlisted fun q hq e => by have := hk q hq; simp at this; omega
      have hlow' : ∀ a, a ≤ k' → Memory.get rest' a = Memory.unlisted := fun a ha =>
        Memory.get_eq_unlisted fun q hq e => by have := hk' q hq; simp at this; omega
      have hkk : k = k' := by
        rcases Nat.lt_trichotomy k k' with hlt | heq | hgt
        · have := h k
          simp only [Memory.get, if_true, Nat.ne_of_lt hlt, if_false, hlow' k hlt.le] at this
          exact absurd this (hn (k, b) (by simp))
        · exact heq
        · have := h k'
          simp only [Memory.get, if_true, Nat.ne_of_lt hgt, if_false, hlow k' hgt.le] at this
          exact absurd this.symm (hn' (k', b') (by simp))
      subst hkk
      have hb : b = b' := by simpa [Memory.get] using h k
      have htail : rest = rest' := by
        refine ih ⟨hrest, fun q hq => hn q (by simp [hq])⟩
          ⟨hrest', fun q hq => hn' q (by simp [hq])⟩ fun a => ?_
        by_cases ha : a = k
        · rw [hlow a ha.le, hlow' a ha.le]
        · simpa [Memory.get, ha] using h a
      rw [hb, htail]

/-! ### The canonical form is kept -/

theorem Memory.mem_cons {m : Memory} {a : Nat} {v : Byte} {p : Nat × Byte}
    (h : p ∈ Memory.cons a v m) : (p = (a, v) ∧ v ≠ Memory.unlisted) ∨ p ∈ m := by
  unfold Memory.cons at h
  split at h
  · exact .inr h
  · rcases List.mem_cons.1 h with rfl | h
    · exact .inl ⟨rfl, ‹_›⟩
    · exact .inr h

theorem Memory.mem_set {m : Memory} {a : Nat} {v : Byte} {p : Nat × Byte} (h : p ∈ m.set a v) :
    (p = (a, v) ∧ v ≠ Memory.unlisted) ∨ p ∈ m := by
  induction m with
  | nil => exact Memory.mem_cons h
  | cons q rest ih =>
    obtain ⟨k, c⟩ := q
    simp only [Memory.set] at h
    split at h
    · exact Memory.mem_cons h
    · split at h
      · exact (Memory.mem_cons h).imp id fun h => List.mem_cons_of_mem _ h
      · rcases List.mem_cons.1 h with rfl | h
        · exact .inr (by simp)
        · exact (ih h).imp id fun h => List.mem_cons_of_mem _ h

theorem Memory.pairwise_cons {m : Memory} {a : Nat} {v : Byte}
    (hm : m.Pairwise fun p q => p.1 < q.1) (h : ∀ p ∈ m, a < p.1) :
    (Memory.cons a v m).Pairwise fun p q => p.1 < q.1 := by
  unfold Memory.cons
  split
  · exact hm
  · exact List.pairwise_cons.2 ⟨h, hm⟩

/-- A write keeps the canonical form. -/
theorem Memory.set_wf {m : Memory} (hm : m.wf) (a : Nat) (v : Byte) : (m.set a v).wf := by
  refine ⟨?_, fun p hp => ?_⟩
  · obtain ⟨hs, -⟩ := hm
    induction m with
    | nil => exact Memory.pairwise_cons .nil (by simp)
    | cons q rest ih =>
      obtain ⟨k, c⟩ := q
      obtain ⟨hk, hrest⟩ := List.pairwise_cons.1 hs
      simp only [Memory.set]
      split
      next hlt =>
        refine Memory.pairwise_cons hs fun p hp => ?_
        rcases List.mem_cons.1 hp with rfl | hp
        · exact hlt
        · exact hlt.trans (hk p hp)
      next hge =>
        split
        next heq => subst heq; exact Memory.pairwise_cons hrest hk
        next hne =>
          refine List.pairwise_cons.2 ⟨fun p hp => ?_, ih hrest⟩
          rcases Memory.mem_set hp with ⟨rfl, -⟩ | hp
          · simp; omega
          · exact hk p hp
  · rcases Memory.mem_set hp with ⟨rfl, hv⟩ | hp
    · exact hv
    · exact hm.2 p hp

theorem Memory.set_within {m : Memory} {size a : Nat} (hm : m.within size) (ha : a < size) (v : Byte) :
    (m.set a v).within size := fun p hp => by
  rcases Memory.mem_set hp with ⟨rfl, -⟩ | hp
  · exact ha
  · exact hm p hp

theorem Memory.setBytes_wf {m : Memory} (hm : m.wf) (a : Nat) (bs : List Byte) :
    (m.setBytes a bs).wf := by
  induction bs generalizing m a with
  | nil => exact hm
  | cons b bs ih => exact ih (Memory.set_wf hm a b) _

theorem Memory.setBytes_within {m : Memory} {size a : Nat} (hm : m.within size) (bs : List Byte)
    (ha : a + bs.length ≤ size) : (m.setBytes a bs).within size := by
  induction bs generalizing m a with
  | nil => exact hm
  | cons b bs ih =>
    simp only [List.length_cons] at ha
    exact ih (Memory.set_within hm (by omega) b) (by omega)

/-! ### Words -/

@[simp] theorem bytesOfWord_length (v : Word) : (bytesOfWord v).length = 8 := rfl

theorem bytesOfWord_get (v : Word) (k : Nat) (hk : k < 8) :
    (bytesOfWord v)[k]'(by simpa using hk) = byteOfWord v k := by
  interval_cases k <;> rfl

/-- A word is the word of its bytes (R9, R70). -/
@[simp] theorem wordOfBytes_byteOfWord (v : Word) :
    wordOfBytes (byteOfWord v 0) (byteOfWord v 1) (byteOfWord v 2) (byteOfWord v 3)
      (byteOfWord v 4) (byteOfWord v 5) (byteOfWord v 6) (byteOfWord v 7) = v := by
  apply BitVec.eq_of_getLsbD_eq
  intro i hi
  simp only [wordOfBytes, byteOfWord, BitVec.getLsbD_append, BitVec.getLsbD_extractLsb']
  interval_cases i <;> simp

/-- The bytes of a word are the bytes it was put together from (R9, R70). -/
theorem bytesOfWord_wordOfBytes (c0 c1 c2 c3 c4 c5 c6 c7 : Byte) :
    bytesOfWord (wordOfBytes c0 c1 c2 c3 c4 c5 c6 c7) = [c0, c1, c2, c3, c4, c5, c6, c7] := by
  simp only [bytesOfWord, byteOfWord, wordOfBytes, List.cons.injEq, and_true]
  refine ⟨?_, ?_, ?_, ?_, ?_, ?_, ?_, ?_⟩ <;>
    (apply BitVec.eq_of_getLsbD_eq
     intro i hi
     simp only [BitVec.getLsbD_append, BitVec.getLsbD_extractLsb']
     interval_cases i <;> simp)

/-- What a byte reads as after a list of bytes is written. -/
theorem Memory.get_setBytes {m : Memory} (hm : m.wf) (a : Nat) (bs : List Byte) (b : Nat) :
    (m.setBytes a bs).get b =
      if h : a ≤ b ∧ b < a + bs.length then bs[b - a]'(by omega) else m.get b := by
  induction bs generalizing m a with
  | nil => simp [Memory.setBytes]
  | cons c bs ih =>
    simp only [Memory.setBytes]
    rw [ih (Memory.set_wf hm a c), Memory.get_set hm]
    by_cases hb : b = a
    · subst hb; simp
    · by_cases hin : a + 1 ≤ b ∧ b < a + 1 + bs.length
      · have hin' : a ≤ b ∧ b < a + (c :: bs).length := by simp; omega
        have hsub : b - a = (b - (a + 1)) + 1 := by omega
        rw [dif_pos hin, dif_pos hin']
        simp [hsub]
      · have hin' : ¬(a ≤ b ∧ b < a + (c :: bs).length) := by simp; omega
        rw [dif_neg hin, dif_neg hin', if_neg hb]

/-- Byte k of a word read is the byte at its address (R70). -/
theorem Memory.byteOfWord_getWord (m : Memory) (a k : Nat) (hk : k < 8) :
    byteOfWord (m.getWord a) k = m.get (a + k) := by
  have hb := bytesOfWord_wordOfBytes (m.get a) (m.get (a + 1)) (m.get (a + 2)) (m.get (a + 3))
    (m.get (a + 4)) (m.get (a + 5)) (m.get (a + 6)) (m.get (a + 7))
  rw [← bytesOfWord_get (m.getWord a) k hk]
  simp only [Memory.getWord, hb]
  interval_cases k <;> rfl

/-- What a byte reads as after a word is stored: the word's bytes at its eight addresses, and the old byte
everywhere else. -/
theorem Memory.get_setWord {m : Memory} (hm : m.wf) (a : Nat) (v : Word) (b : Nat) :
    (m.setWord a v).get b =
      if a ≤ b ∧ b < a + 8 then byteOfWord v (b - a) else m.get b := by
  rw [Memory.setWord, Memory.get_setBytes hm]
  split
  next h => rw [if_pos (by simpa using h)]; exact bytesOfWord_get v _ (by simp at h; omega)
  next h => rw [if_neg (by simpa using h)]

/-- A stored word is read back. -/
theorem Memory.getWord_setWord {m : Memory} (hm : m.wf) (a : Nat) (v : Word) :
    (m.setWord a v).getWord a = v := by
  simp [Memory.getWord, Memory.get_setWord hm]

/-! ### The ports and the Memory stage -/

theorem inRange_iff {cfg : Config} {a : Word} {n : Nat} :
    inRange cfg a n = true ↔
      a.toNat + n ≤ cfg.memSize ∧ (cfg.longAlignCheck = true → n = 8 → a.toNat % 8 = 0) := by
  simp [inRange]
  grind

theorem putLong_wf {cfg : Config} {m : Memory} (hm : m.wf) (a v : Word) : (putLong cfg m a v).wf := by
  unfold putLong
  split
  · exact Memory.setBytes_wf hm _ _
  · exact hm

theorem putLong_within {cfg : Config} {m : Memory} (hm : m.within cfg.memSize) (a v : Word) :
    (putLong cfg m a v).within cfg.memSize := by
  unfold putLong
  split
  next h => exact Memory.setBytes_within hm _ (by simpa using (inRange_iff.1 h).1)
  next => exact hm

/-- Every access keeps the canonical form. -/
theorem nextMem_wf {cfg : Config} {m : Memory} (hm : m.wf) (acc : Access) : (nextMem cfg m acc).wf := by
  cases acc with
  | none => exact hm
  | read a => exact hm
  | write a v => exact putLong_wf hm a v

/-- Every access keeps the memory within MEM_SIZE. -/
theorem nextMem_within {cfg : Config} {m : Memory} (hm : m.within cfg.memSize) (acc : Access) :
    (nextMem cfg m acc).within cfg.memSize := by
  cases acc with
  | none => exact hm
  | read a => exact hm
  | write a v => exact putLong_within hm a v

theorem writeInRange_wf {cfg : Config} {m : Memory} (hm : m.wf) (a : Word) (bs : List Byte) :
    (writeInRange cfg m a bs).wf := by
  induction bs generalizing m a with
  | nil => exact hm
  | cons b bs ih =>
    refine ih ?_ _
    split
    · exact Memory.set_wf hm _ b
    · exact hm

/-- Memory at reset has the canonical form. -/
theorem reset_mem_wf : State.reset.mem.wf := by decide

end Sys2Proof.Machine
end

