-- ==== Sys2Proof/Laws/Decode.lean ====
section
/-! SUPPORT. The fields of a byte, the instruction codes and the parts of the decoder: one lemma each. -/

namespace Sys2Proof

@[simp] theorem hiNibble_byteOfNibbles (a b : Nibble) : hiNibble (byteOfNibbles a b) = a := by
  revert a b; decide

@[simp] theorem loNibble_byteOfNibbles (a b : Nibble) : loNibble (byteOfNibbles a b) = b := by
  revert a b; decide

@[simp] theorem byteOfNibbles_hi_lo (b : Byte) : byteOfNibbles (hiNibble b) (loNibble b) = b := by
  revert b; decide

@[simp] theorem Icode.ofNibble_toNibble (c : Icode) : Icode.ofNibble c.toNibble = c := by
  cases c <;> rfl

@[simp] theorem Icode.toNibble_ofNibble (n : Nibble) : (Icode.ofNibble n).toNibble = n := by
  revert n; decide

/-- The constant reader gives back a word laid out little-endian, and the bytes after it. -/
@[simp] theorem withConstant_bytesOfWord (k : Word → List Byte → Decoded) (v : Word)
    (rest : List Byte) : withConstant k (bytesOfWord v ++ rest) = k v rest := by
  show k (wordOfBytes _ _ _ _ _ _ _ _) rest = _
  rw [Machine.wordOfBytes_byteOfWord]

/-- What the constant reader can answer: it read eight bytes, or there are fewer. -/
theorem withConstant_cases (k : Word → List Byte → Decoded) (bs : List Byte) :
    (∃ v rest, bs = bytesOfWord v ++ rest ∧ withConstant k bs = k v rest) ∨
      (bs.length < 8 ∧ withConstant k bs = .error .noConstant) := by
  match bs with
  | c0 :: c1 :: c2 :: c3 :: c4 :: c5 :: c6 :: c7 :: rest =>
    refine .inl ⟨wordOfBytes c0 c1 c2 c3 c4 c5 c6 c7, rest, ?_, rfl⟩
    rw [Machine.bytesOfWord_wordOfBytes]
    rfl
  | [] | [_] | [_, _] | [_, _, _] | [_, _, _, _] | [_, _, _, _, _] | [_, _, _, _, _, _]
  | [_, _, _, _, _, _, _] => exact .inr ⟨by simp, rfl⟩

/-! ### Lengths -/

@[simp] theorem encode_length (i : Instr) : (encode i).length = i.length := by
  cases i <;> rfl

theorem Instr.length_pos (i : Instr) : 0 < i.length := by
  cases i <;> simp [Instr.length]

theorem Instr.length_le (i : Instr) : i.length ≤ maxLength := by
  cases i <;> simp [Instr.length, maxLength]

/-! ### The three formats with operand bytes -/

@[simp] theorem decodeF2_cons (mk : Nibble → Nibble → Instr) (b : Byte) (rest : List Byte) :
    decodeF2 mk (b :: rest) = .ok (mk (hiNibble b) (loNibble b), rest) := rfl

@[simp] theorem decodeF9_bytesOfWord (mk : Word → Instr) (v : Word) (rest : List Byte) :
    decodeF9 mk (bytesOfWord v ++ rest) = .ok (mk v, rest) :=
  withConstant_bytesOfWord _ v rest

@[simp] theorem decodeF10_cons_bytesOfWord (mk : Nibble → Nibble → Word → Instr) (b : Byte)
    (v : Word) (rest : List Byte) :
    decodeF10 mk (b :: (bytesOfWord v ++ rest)) = .ok (mk (hiNibble b) (loNibble b) v, rest) :=
  withConstant_bytesOfWord (fun c rest => .ok (mk (hiNibble b) (loNibble b) c, rest)) v rest

/-! ### The reserved functions -/

theorem moveOfIfun_reserved {f : Nibble} (h : 8 ≤ f.toNat) (rA rB : Nibble) :
    moveOfIfun f rA rB = .reservedCmov8F f rA rB := by
  unfold moveOfIfun
  split <;> simp_all

theorem opOfIfun_reserved47 {f : Nibble} (h : 4 ≤ f.toNat) (h' : f.toNat ≤ 7) (rA rB : Nibble) :
    opOfIfun f rA rB = .reservedOp47 f rA rB := by
  unfold opOfIfun
  split
  iterate 4 simp at h
  rw [if_pos (by omega)]

theorem opOfIfun_reserved8F {f : Nibble} (h : 8 ≤ f.toNat) (rA rB : Nibble) :
    opOfIfun f rA rB = .reservedOp8F f rA rB := by
  unfold opOfIfun
  split
  iterate 4 simp at h
  rw [if_neg (by omega)]

theorem jumpOfIfun_reserved {f : Nibble} (h : 8 ≤ f.toNat) (Dest : Word) :
    jumpOfIfun f Dest = .reservedJump8F f Dest := by
  unfold jumpOfIfun
  split <;> simp_all

/-- The codes 12 to 15 decode as non-instructions (30_encoding.md R110). -/
theorem decode_nonInstruction {c : Nibble} (h : 12 ≤ c.toNat) (f : Nibble) (rest : List Byte) :
    decode (byteOfNibbles c f :: rest) = .ok (.nonInstruction c f, rest) := by
  have hc : Icode.ofNibble c = .codeC ∨ Icode.ofNibble c = .codeD ∨ Icode.ofNibble c = .codeE ∨
      Icode.ofNibble c = .codeF := by revert c; decide
  rcases hc with hc | hc | hc | hc <;> simp [decode, hc]

end Sys2Proof
end

