-- ==== Sys2Proof/Laws/Registers.lean ====
section
/-! SUPPORT. The register file, the forwarding network and the names of registers: one lemma per function. -/

namespace Sys2Proof.Machine

@[simp] theorem readReg_none (x : RegFile) : readReg x none = 0 := rfl
@[simp] theorem readReg_some (x : RegFile) (i : Fin 16) : readReg x (some i) = x[i] := rfl
@[simp] theorem writeReg_none (x : RegFile) (v : Word) : writeReg x none v = x := rfl

/-- A written register reads the value; every other one, and RNONE, reads as before. -/
theorem readReg_writeReg (x : RegFile) (r q : RegId) (v : Word) :
    readReg (writeReg x r v) q = if r = q ∧ q ≠ none then v else readReg x q := by
  cases r with
  | none => cases q <;> simp
  | some i =>
    cases q with
    | none => simp
    | some j =>
      by_cases h : i = j
      · subst h; simp [writeReg]
      · have : (i : Nat) ≠ j := fun e => h (Fin.ext e)
        simp [writeReg, h, Vector.getElem_set_ne, this]

/-- Two register files that read the same are the same. -/
theorem RegFile.ext_read {x y : RegFile} (h : ∀ n : Fin 16, readReg x (some n) = readReg y (some n)) :
    x = y := by
  ext i hi
  have := h ⟨i, hi⟩
  simp at this
  rw [this]

/-- Writeback, as two writes in order; a HALT writes nothing. -/
theorem nextX_eq (W : WReg) (x : RegFile) :
    nextX W x = if W.icode = .halt then x
      else writeReg (writeReg x W.dstE W.valE) W.dstM W.valM := rfl

/-! ### Forwarding -/

@[simp] theorem forward_none (eDstE : RegId) (eValE : Word) (M : MReg) (W : WReg) (x : RegFile) :
    forward none eDstE eValE M W x = 0 := rfl

/-- The forwarding function for a register number: the first matching source (41_decode.md R180). -/
theorem forward_some (i : Fin 16) (eDstE : RegId) (eValE : Word) (M : MReg) (W : WReg) (x : RegFile) :
    forward (some i) eDstE eValE M W x =
      if eDstE = some i then eValE
      else if M.dstE = some i then M.valE
      else if W.dstE = some i then W.valE
      else readReg x (some i) := by
  simp only [forward, forwardsFrom, reduceCtorEq, if_false, Option.isSome_some, Bool.true_and,
    beq_iff_eq, @eq_comm RegId (some i)]

/-- Forwarding with nothing in flight reads the register file. -/
theorem forward_of_none (s : RegId) (eValE : Word) (M : MReg) (W : WReg) (x : RegFile)
    (hM : M.dstE = none) (hW : W.dstE = none) : forward s none eValE M W x = readReg x s := by
  cases s with
  | none => rfl
  | some i => simp [forward_some, hM, hW]

/-! ### Register names -/

/-- No nibble names a register the parameters do not allow (10_state.md R34). -/
theorem regOf_allowed (cfg : Config) (n : Nibble) : RegId.allowed cfg (regOf cfg n) := by
  intro h
  simp only [regOf, h, Bool.true_and]
  revert n
  decide

theorem RegId.allowed_none (cfg : Config) : RegId.allowed cfg none := fun _ => by simp

theorem RegId.allowed_RSP (cfg : Config) : RegId.allowed cfg RSP := fun _ => by decide

end Sys2Proof.Machine
end

