-- ==== Sys2Proof/Laws/Exec.lean ====
section
/-! SUPPORT. What exec and step can do, said once: each is the tick of one packet, and answers exactly while the
machine runs. -/

namespace Sys2Proof.Machine

/-- The packet Fetch stages for an instruction: the F line of its rule. -/
def packetOf (i : Instr) (s : State) : Fetched :=
  match i with
  | .halt f => s.fetchF1 .hlt .halt f
  | .nop f => s.fetchF1 .aok .nop f
  | .rrmovq rA rB => s.fetchF2 .rrmovq 0x0 rA rB
  | .cmovle rA rB => s.fetchF2 .rrmovq 0x1 rA rB
  | .cmovl rA rB => s.fetchF2 .rrmovq 0x2 rA rB
  | .cmove rA rB => s.fetchF2 .rrmovq 0x3 rA rB
  | .cmovne rA rB => s.fetchF2 .rrmovq 0x4 rA rB
  | .cmovge rA rB => s.fetchF2 .rrmovq 0x5 rA rB
  | .cmovg rA rB => s.fetchF2 .rrmovq 0x6 rA rB
  | .reservedCmov7 rA rB => s.fetchF2 .rrmovq 0x7 rA rB
  | .reservedCmov8F f rA rB => s.fetchF2 .rrmovq f rA rB
  | .irmovq f rA rB V => s.fetchF10 .irmovq f rA rB V
  | .rmmovq f rA rB D => s.fetchF10 .rmmovq f rA rB D
  | .mrmovq f rA rB D => s.fetchF10 .mrmovq f rA rB D
  | .addq rA rB => s.fetchF2 .opq 0x0 rA rB
  | .subq rA rB => s.fetchF2 .opq 0x1 rA rB
  | .andq rA rB => s.fetchF2 .opq 0x2 rA rB
  | .xorq rA rB => s.fetchF2 .opq 0x3 rA rB
  | .reservedOp47 f rA rB => s.fetchF2 .opq f rA rB
  | .reservedOp8F f rA rB => s.fetchF2 .opq f rA rB
  | .jmp d => s.fetchF9 .jxx 0x0 d
  | .jle d => s.fetchF9 .jxx 0x1 d
  | .jl d => s.fetchF9 .jxx 0x2 d
  | .je d => s.fetchF9 .jxx 0x3 d
  | .jne d => s.fetchF9 .jxx 0x4 d
  | .jge d => s.fetchF9 .jxx 0x5 d
  | .jg d => s.fetchF9 .jxx 0x6 d
  | .reservedJump7 d => s.fetchF9 .jxx 0x7 d
  | .reservedJump8F f d => s.fetchF9 .jxx f d
  | .call f d => s.fetchF9 .call f d
  | .ret f => s.fetchF1 .aok .ret f
  | .pushq f rA rB => s.fetchF2 .pushq f rA rB
  | .popq f rA rB => s.fetchF2 .popq f rA rB
  | .nonInstruction c f => s.fetchF1 .ins (.ofNibble c) f

/-- An instruction's meaning is the tick of its packet. -/
theorem exec_eq_clock (i : Instr) (s : State) : exec i s = clock s (packetOf i s) := by
  cases i <;> rfl

/-- The packet of the next tick of `step`. -/
def State.nextPacket (s : State) : Fetched :=
  match decode s.fetchWindow with
  | .ok (i, _) => packetOf i s
  | .error _ => .addressError

/-- A step is the tick of the packet fetched. -/
theorem step_eq_clock (s : State) : step s = clock s s.nextPacket := by
  unfold step State.nextPacket
  cases h : decode s.fetchWindow with
  | ok r => exact exec_eq_clock _ _
  | error e => rfl

theorem clock_of_running {s : State} (h : s.running = true) (f : Fetched) :
    clock s f = .next (s.tick f) := by simp [clock, h]

/-- A tick answers a next state exactly while running, and that state is `tick`'s. -/
theorem clock_next_iff {s t : State} {f : Fetched} :
    clock s f = .next t ↔ s.running = true ∧ t = s.tick f := by
  unfold clock
  split
  next h => exact ⟨fun e => ⟨h, (Host.Outcome.next.inj e).symm⟩, fun e => by rw [e.2]⟩
  next h => exact ⟨fun e => (nomatch e), fun e => absurd e.1 h⟩

theorem exec_next_iff {i : Instr} {s t : State} :
    exec i s = .next t ↔ s.running = true ∧ t = s.tick (packetOf i s) := by
  rw [exec_eq_clock, clock_next_iff]

theorem step_next_iff {s t : State} :
    step s = .next t ↔ s.running = true ∧ t = s.tick s.nextPacket := by
  rw [step_eq_clock, clock_next_iff]

/-- What a step can answer: the tick of some packet of a running machine. -/
theorem step_cases {s t : State} (h : step s = .next t) :
    ∃ f, f = s.nextPacket ∧ s.running = true ∧ t = s.tick f :=
  ⟨_, rfl, step_next_iff.1 h⟩

/-- Going on from a running state is a claim about its next tick. -/
theorem next_of_tick {s : State} {P : State → Prop} (h : P (s.tick s.nextPacket)) : Next s P :=
  fun hr => ⟨_, step_next_iff.2 ⟨hr, rfl⟩, h⟩

/-- Feeding one instruction to a running machine. -/
theorem feed_cons_of_running {s : State} (h : s.running = true) (i : Instr) (rest : List Instr) :
    feed (i :: rest) s = feed rest (s.tick (packetOf i s)) := by
  simp [feed, exec_next_iff.2 ⟨h, rfl⟩]

/-! ### Stopping and writing back -/

/-- The stop condition in words (43_memory_writeback.md R249). -/
theorem stopsRun_iff (policy : StopPolicy) (W : WReg) :
    stopsRun policy W = true ↔
      W.icode = .halt ∨ (policy = .anyNonAok ∧ (W.stat = .adr ∨ W.stat = .ins)) := by
  unfold stopsRun WReg.done
  cases policy <;> simp [or_assoc]

/-- An AOK instruction that is not HALT stops no run. -/
theorem stopsRun_of_aok {policy : StopPolicy} {W : WReg} (h : W.stat = .aok) (hi : W.icode ≠ .halt) :
    stopsRun policy W = false := by
  by_contra hc
  have := (stopsRun_iff policy W).1 (by simpa using hc)
  simp_all

/-- Under HALT_ONLY only a HALT in W stops the run. -/
theorem tick_running_of_haltOnly {s : State} {f : Fetched} (hp : s.cfg.stopPolicy = .haltOnly)
    (h : s.W.icode ≠ .halt) : (s.tick f).running = true := by
  simp [hp, stopsRun, WReg.done, h]

/-- Writeback of anything but HALT. -/
theorem nextX_of_ne_halt {W : WReg} (x : RegFile) (h : W.icode ≠ .halt) :
    nextX W x = writeReg (writeReg x W.dstE W.valE) W.dstM W.valM := by
  simp [nextX, h]

/-- A register that is no destination keeps its value. -/
theorem nextX_other {W : WReg} {n : Fin 16} (x : RegFile) (hE : W.dstE ≠ some n)
    (hM : W.dstM ≠ some n) : (nextX W x)[n] = x[n] := by
  unfold nextX
  split
  · rfl
  · rw [← readReg_some, ← readReg_some, readReg_writeReg, readReg_writeReg]
    simp [hE, hM]

/-! ### Operand selections that every instruction rule uses -/

/-- An icode that is not OPQ adds (R202). -/
theorem eValE_of_ne_opq {E : EReg} (h : E.icode ≠ .opq) : eValE E = aluAOf E + aluBOf E := by
  simp [eValE, aluFunOf, h, alu]

/-- Only a conditional move can lose its destination (R211). -/
theorem eDstE_of_ne_rrmovq {E : EReg} (cc : CC) (h : E.icode ≠ .rrmovq) : eDstE E cc = E.dstE := by
  simp [eDstE, h]

/-- Only OPQ writes the condition codes (R206). -/
theorem nextCC_of_ne_opq {E : EReg} (cc : CC) (h : E.icode ≠ .opq) : nextCC E cc = cc := by
  simp [nextCC, h]

/-- No selector 7 or more is a condition (R208). -/
theorem condition_reserved {f : Nibble} (h : 7 ≤ f.toNat) (cc : CC) : condition f cc = false := by
  have : ∀ (f : Nibble) (z sf o : Bool), 7 ≤ f.toNat → condition f ⟨z, sf, o⟩ = false := by decide
  exact this f cc.ZF cc.SF cc.OF h

/-- No selector 4 or more is an operator (R202). -/
theorem aluFun_reserved {f : Nibble} (h : 4 ≤ f.toNat) : AluFun.ofIfun f = .unknown := by
  revert f; decide

end Sys2Proof.Machine
end

