-- ==== Sys2Proof/Laws/Fetch.lean ====
section
/-! SUPPORT. The bytes Fetch can read: what is in the window, how the decoder's readers go through it, and what the
host's placement puts there. -/

namespace Sys2Proof.Machine

variable (cfg : Config) (m : Memory)

theorem readWhileInRange_succ (a : Word) (n : Nat) :
    readWhileInRange cfg m a (n + 1) =
      match getByte cfg m a with
      | none => []
      | some b => b :: readWhileInRange cfg m (a + 1) n := rfl

theorem add_one_add (a : Word) (k : Nat) :
    a + 1 + BitVec.ofNat 64 k = a + BitVec.ofNat 64 (k + 1) := by
  rw [BitVec.add_assoc]
  congr 1
  apply BitVec.eq_of_toNat_eq
  simp
  omega

/-- Bytes that can be read one by one begin the window. -/
theorem readWhileInRange_prefix (bs : List Byte) (n : Nat) (a : Word) (hn : bs.length ≤ n)
    (h : ∀ k (h : k < bs.length), getByte cfg m (a + BitVec.ofNat 64 k) = some bs[k]) :
    ∃ rest, readWhileInRange cfg m a n = bs ++ rest := by
  induction bs generalizing n a with
  | nil => exact ⟨_, rfl⟩
  | cons b bs ih =>
    cases n with
    | zero => simp at hn
    | succ n =>
      have h0 := h 0 (by simp)
      simp at h0
      obtain ⟨rest, hr⟩ := ih n (a + 1) (by simpa using hn) fun k hk => by
        rw [add_one_add]; exact h (k + 1) (by simpa using hk)
      exact ⟨rest, by rw [readWhileInRange_succ, h0]; show b :: _ = _; rw [hr]; rfl⟩

/-- The window ends before a byte that cannot be read. -/
theorem readWhileInRange_short (n : Nat) (a : Word) (k : Nat)
    (h : getByte cfg m (a + BitVec.ofNat 64 k) = none) :
    (readWhileInRange cfg m a n).length ≤ k := by
  induction k generalizing n a with
  | zero =>
    cases n with
    | zero => rfl
    | succ n => simp at h; simp [readWhileInRange_succ, h]
  | succ k ih =>
    cases n with
    | zero => simp [readWhileInRange]
    | succ n =>
      rw [readWhileInRange_succ]
      cases getByte cfg m a with
      | none => simp
      | some b => simpa using ih n (a + 1) (by rw [add_one_add]; exact h)

/-! ### The decoder's readers on a window -/

theorem decodeF2_window (a : Word) (n : Nat) (mk : Nibble → Nibble → Instr) :
    decodeF2 mk (readWhileInRange cfg m a (n + 1)) =
      match getByte cfg m a with
      | none => .error .noRegisterByte
      | some b => .ok (mk (hiNibble b) (loNibble b), readWhileInRange cfg m (a + 1) n) := by
  rw [readWhileInRange_succ]
  cases getByte cfg m a <;> rfl

/-- The constant reader on a window reads what the spec's eight byte reads give (40_fetch.md R145). -/
theorem withConstant_window (a : Word) (n : Nat) (k : Word → List Byte → Decoded) :
    withConstant k (readWhileInRange cfg m a (n + 8)) =
      match Reference.fetchConst cfg m true a with
      | none => .error .noConstant
      | some v => k v (readWhileInRange cfg m (a + 8) n) := by
  have e1 : a + 1 + 1 = a + 2 := by bv_omega
  have e2 : a + 2 + 1 = a + 3 := by bv_omega
  have e3 : a + 3 + 1 = a + 4 := by bv_omega
  have e4 : a + 4 + 1 = a + 5 := by bv_omega
  have e5 : a + 5 + 1 = a + 6 := by bv_omega
  have e6 : a + 6 + 1 = a + 7 := by bv_omega
  have e7 : a + 7 + 1 = a + 8 := by bv_omega
  simp only [readWhileInRange_succ, e1, e2, e3, e4, e5, e6, e7, Reference.fetchConst, if_true]
  cases getByte cfg m a with
  | none => rfl
  | some c0 =>
  cases getByte cfg m (a + 1) with
  | none => rfl
  | some c1 =>
  cases getByte cfg m (a + 2) with
  | none => rfl
  | some c2 =>
  cases getByte cfg m (a + 3) with
  | none => rfl
  | some c3 =>
  cases getByte cfg m (a + 4) with
  | none => rfl
  | some c4 =>
  cases getByte cfg m (a + 5) with
  | none => rfl
  | some c5 =>
  cases getByte cfg m (a + 6) with
  | none => rfl
  | some c6 =>
  cases getByte cfg m (a + 7) with
  | none => rfl
  | some c7 => rfl

/-! ### The packets of the instructions that share an icode -/

theorem packetOf_moveOfIfun (f rA rB : Nibble) (s : State) :
    packetOf (moveOfIfun f rA rB) s = s.fetchF2 .rrmovq f rA rB := by
  unfold moveOfIfun
  split <;> rfl

theorem packetOf_opOfIfun (f rA rB : Nibble) (s : State) :
    packetOf (opOfIfun f rA rB) s = s.fetchF2 .opq f rA rB := by
  unfold opOfIfun
  split
  iterate 4 rfl
  split <;> rfl

theorem packetOf_jumpOfIfun (f : Nibble) (Dest : Word) (s : State) :
    packetOf (jumpOfIfun f Dest) s = s.fetchF9 .jxx f Dest := by
  unfold jumpOfIfun
  split <;> rfl

/-! ### The host's placement -/

@[simp] theorem tableBytes_length (nbits w : Nat) : (tableBytes nbits w).length = 10 := by
  simp [tableBytes, maxLength]

/-- Placing bytes that all exist is writing them at consecutive addresses. -/
theorem writeInRange_eq_setBytes (a : Word) (bs : List Byte) (hw : cfg.memSize ≤ 2 ^ 64)
    (h : a.toNat + bs.length ≤ cfg.memSize) : writeInRange cfg m a bs = m.setBytes a.toNat bs := by
  induction bs generalizing m a with
  | nil => rfl
  | cons b bs ih =>
    simp only [List.length_cons] at h
    have hin : inRange cfg a 1 = true := by simp [inRange]; omega
    simp only [writeInRange, hin, if_true, Memory.setBytes]
    cases bs with
    | nil => rfl
    | cons c cs =>
      simp only [List.length_cons] at h
      have ha : (a + 1).toNat = a.toNat + 1 := by bv_omega
      rw [ih, ha]
      rw [ha]
      simp
      omega

end Sys2Proof.Machine
end

