-- ==== Sys2Proof/Laws/PerInstr.lean ====
section
/-! SUPPORT. Two facts about the syntax of every instruction, one lemma per constructor: `RowShape` (its encoding has
the length of its format and a first byte of its row of the opcode table) and `RoundTrip` (its encoding decodes to
it, whatever bytes follow). -/

namespace Sys2Proof.Laws

/-- The encoding has the format's length, and its first byte is one of the row's (30_encoding.md R103, R114). -/
def RowShape.Statement (i : Instr) : Prop :=
  i.wf = true → (encode i).length = i.length ∧
    ∃ r ∈ opcodeRows, r.mnemonic = i.mnemonic ∧ r.covers ((encode i).headD 0) = true

/-- The encoding, followed by any bytes, decodes to the instruction and those bytes. -/
def RoundTrip.Statement (i : Instr) : Prop :=
  i.wf = true → ∀ rest : List Byte, decode (encode i ++ rest) = .ok (i, rest)

/-- A row of the table covers a first byte for every value of the ifun nibble that `ok` allows. -/
theorem row_covers (name : String) (ok : Nibble → Bool) (hi : Nibble)
    (h : ∃ r ∈ opcodeRows, r.mnemonic = name ∧
      ∀ f : Nibble, ok f = true → r.covers (byteOfNibbles hi f) = true)
    (f : Nibble) (hf : ok f = true) :
    ∃ r ∈ opcodeRows, r.mnemonic = name ∧ r.covers (byteOfNibbles hi f) = true :=
  let ⟨r, hr, hn, hc⟩ := h
  ⟨r, hr, hn, hc f hf⟩

/-- The one row of the bytes 0xC0 to 0xFF covers them all. -/
theorem nonInstruction_row (c f : Nibble) (h : (Instr.nonInstruction c f).wf = true) :
    ∃ r ∈ opcodeRows, r.mnemonic = (Instr.nonInstruction c f).mnemonic ∧
      r.covers (byteOfNibbles c f) = true := by
  have hall : ∀ c f : Nibble, 12 ≤ c.toNat →
      (OpcodeRow.mk "non-instruction__icode_C..F" 0xC0 0xC0).covers (byteOfNibbles c f) = true := by
    decide
  exact ⟨⟨"non-instruction__icode_C..F", 0xC0, 0xC0⟩, by decide, rfl,
    hall c f (by simpa [Instr.wf] using h)⟩


/-! ### RowShape -/

theorem RowShape.halt (ifun : Nibble) :
    RowShape.Statement (.halt ifun) :=
  fun _ => ⟨rfl, row_covers "halt" (fun _ => true) 0x0 (by decide) ifun rfl⟩

theorem RowShape.nop (ifun : Nibble) :
    RowShape.Statement (.nop ifun) :=
  fun _ => ⟨rfl, row_covers "nop" (fun _ => true) 0x1 (by decide) ifun rfl⟩

theorem RowShape.rrmovq (rA rB : Nibble) :
    RowShape.Statement (.rrmovq rA rB) :=
  fun _ => ⟨rfl, row_covers "rrmovq" (fun f => f == 0x0) 0x2 (by decide) 0x0 rfl⟩

theorem RowShape.cmovle (rA rB : Nibble) :
    RowShape.Statement (.cmovle rA rB) :=
  fun _ => ⟨rfl, row_covers "cmovle" (fun f => f == 0x1) 0x2 (by decide) 0x1 rfl⟩

theorem RowShape.cmovl (rA rB : Nibble) :
    RowShape.Statement (.cmovl rA rB) :=
  fun _ => ⟨rfl, row_covers "cmovl" (fun f => f == 0x2) 0x2 (by decide) 0x2 rfl⟩

theorem RowShape.cmove (rA rB : Nibble) :
    RowShape.Statement (.cmove rA rB) :=
  fun _ => ⟨rfl, row_covers "cmove" (fun f => f == 0x3) 0x2 (by decide) 0x3 rfl⟩

theorem RowShape.cmovne (rA rB : Nibble) :
    RowShape.Statement (.cmovne rA rB) :=
  fun _ => ⟨rfl, row_covers "cmovne" (fun f => f == 0x4) 0x2 (by decide) 0x4 rfl⟩

theorem RowShape.cmovge (rA rB : Nibble) :
    RowShape.Statement (.cmovge rA rB) :=
  fun _ => ⟨rfl, row_covers "cmovge" (fun f => f == 0x5) 0x2 (by decide) 0x5 rfl⟩

theorem RowShape.cmovg (rA rB : Nibble) :
    RowShape.Statement (.cmovg rA rB) :=
  fun _ => ⟨rfl, row_covers "cmovg" (fun f => f == 0x6) 0x2 (by decide) 0x6 rfl⟩

theorem RowShape.reservedCmov7 (rA rB : Nibble) :
    RowShape.Statement (.reservedCmov7 rA rB) :=
  fun _ => ⟨rfl, row_covers "reserved_cmov__ifun_7" (fun f => f == 0x7) 0x2 (by decide) 0x7 rfl⟩

theorem RowShape.reservedCmov8F (ifun rA rB : Nibble) :
    RowShape.Statement (.reservedCmov8F ifun rA rB) :=
  fun h => ⟨rfl,
    row_covers "reserved_cmov__ifun_8..F" (fun f => 8 ≤ f.toNat) 0x2 (by decide) ifun h⟩

theorem RowShape.irmovq (ifun rA rB : Nibble) (V : Word) :
    RowShape.Statement (.irmovq ifun rA rB V) :=
  fun _ => ⟨rfl, row_covers "irmovq" (fun _ => true) 0x3 (by decide) ifun rfl⟩

theorem RowShape.rmmovq (ifun rA rB : Nibble) (D : Word) :
    RowShape.Statement (.rmmovq ifun rA rB D) :=
  fun _ => ⟨rfl, row_covers "rmmovq" (fun _ => true) 0x4 (by decide) ifun rfl⟩

theorem RowShape.mrmovq (ifun rA rB : Nibble) (D : Word) :
    RowShape.Statement (.mrmovq ifun rA rB D) :=
  fun _ => ⟨rfl, row_covers "mrmovq" (fun _ => true) 0x5 (by decide) ifun rfl⟩

theorem RowShape.addq (rA rB : Nibble) :
    RowShape.Statement (.addq rA rB) :=
  fun _ => ⟨rfl, row_covers "addq" (fun f => f == 0x0) 0x6 (by decide) 0x0 rfl⟩

theorem RowShape.subq (rA rB : Nibble) :
    RowShape.Statement (.subq rA rB) :=
  fun _ => ⟨rfl, row_covers "subq" (fun f => f == 0x1) 0x6 (by decide) 0x1 rfl⟩

theorem RowShape.andq (rA rB : Nibble) :
    RowShape.Statement (.andq rA rB) :=
  fun _ => ⟨rfl, row_covers "andq" (fun f => f == 0x2) 0x6 (by decide) 0x2 rfl⟩

theorem RowShape.xorq (rA rB : Nibble) :
    RowShape.Statement (.xorq rA rB) :=
  fun _ => ⟨rfl, row_covers "xorq" (fun f => f == 0x3) 0x6 (by decide) 0x3 rfl⟩

theorem RowShape.reservedOp47 (ifun rA rB : Nibble) :
    RowShape.Statement (.reservedOp47 ifun rA rB) :=
  fun h => ⟨rfl,
    row_covers "reserved_OPq__ifun_4..7" (fun f => 4 ≤ f.toNat && f.toNat ≤ 7) 0x6 (by decide) ifun h⟩

theorem RowShape.reservedOp8F (ifun rA rB : Nibble) :
    RowShape.Statement (.reservedOp8F ifun rA rB) :=
  fun h => ⟨rfl,
    row_covers "reserved_OPq__ifun_8..F" (fun f => 8 ≤ f.toNat) 0x6 (by decide) ifun h⟩

theorem RowShape.jmp (Dest : Word) :
    RowShape.Statement (.jmp Dest) :=
  fun _ => ⟨rfl, row_covers "jmp" (fun f => f == 0x0) 0x7 (by decide) 0x0 rfl⟩

theorem RowShape.jle (Dest : Word) :
    RowShape.Statement (.jle Dest) :=
  fun _ => ⟨rfl, row_covers "jle" (fun f => f == 0x1) 0x7 (by decide) 0x1 rfl⟩

theorem RowShape.jl (Dest : Word) :
    RowShape.Statement (.jl Dest) :=
  fun _ => ⟨rfl, row_covers "jl" (fun f => f == 0x2) 0x7 (by decide) 0x2 rfl⟩

theorem RowShape.je (Dest : Word) :
    RowShape.Statement (.je Dest) :=
  fun _ => ⟨rfl, row_covers "je" (fun f => f == 0x3) 0x7 (by decide) 0x3 rfl⟩

theorem RowShape.jne (Dest : Word) :
    RowShape.Statement (.jne Dest) :=
  fun _ => ⟨rfl, row_covers "jne" (fun f => f == 0x4) 0x7 (by decide) 0x4 rfl⟩

theorem RowShape.jge (Dest : Word) :
    RowShape.Statement (.jge Dest) :=
  fun _ => ⟨rfl, row_covers "jge" (fun f => f == 0x5) 0x7 (by decide) 0x5 rfl⟩

theorem RowShape.jg (Dest : Word) :
    RowShape.Statement (.jg Dest) :=
  fun _ => ⟨rfl, row_covers "jg" (fun f => f == 0x6) 0x7 (by decide) 0x6 rfl⟩

theorem RowShape.reservedJump7 (Dest : Word) :
    RowShape.Statement (.reservedJump7 Dest) :=
  fun _ => ⟨rfl, row_covers "reserved_jXX__ifun_7" (fun f => f == 0x7) 0x7 (by decide) 0x7 rfl⟩

theorem RowShape.reservedJump8F (ifun : Nibble) (Dest : Word) :
    RowShape.Statement (.reservedJump8F ifun Dest) :=
  fun h => ⟨rfl,
    row_covers "reserved_jXX__ifun_8..F" (fun f => 8 ≤ f.toNat) 0x7 (by decide) ifun h⟩

theorem RowShape.call (ifun : Nibble) (Dest : Word) :
    RowShape.Statement (.call ifun Dest) :=
  fun _ => ⟨rfl, row_covers "call" (fun _ => true) 0x8 (by decide) ifun rfl⟩

theorem RowShape.ret (ifun : Nibble) :
    RowShape.Statement (.ret ifun) :=
  fun _ => ⟨rfl, row_covers "ret" (fun _ => true) 0x9 (by decide) ifun rfl⟩

theorem RowShape.pushq (ifun rA rB : Nibble) :
    RowShape.Statement (.pushq ifun rA rB) :=
  fun _ => ⟨rfl, row_covers "pushq" (fun _ => true) 0xA (by decide) ifun rfl⟩

theorem RowShape.popq (ifun rA rB : Nibble) :
    RowShape.Statement (.popq ifun rA rB) :=
  fun _ => ⟨rfl, row_covers "popq" (fun _ => true) 0xB (by decide) ifun rfl⟩

theorem RowShape.nonInstruction (icode ifun : Nibble) :
    RowShape.Statement (.nonInstruction icode ifun) :=
  fun h => ⟨rfl, nonInstruction_row icode ifun h⟩


/-! ### RoundTrip -/

theorem RoundTrip.halt (ifun : Nibble) :
    RoundTrip.Statement (.halt ifun) :=
  fun _ _ => by simp [encode, decode, Icode.ofNibble]

theorem RoundTrip.nop (ifun : Nibble) :
    RoundTrip.Statement (.nop ifun) :=
  fun _ _ => by simp [encode, decode, Icode.ofNibble]

theorem RoundTrip.rrmovq (rA rB : Nibble) :
    RoundTrip.Statement (.rrmovq rA rB) :=
  fun _ _ => by simp [encode, encodeF2, decode, moveOfIfun]

theorem RoundTrip.cmovle (rA rB : Nibble) :
    RoundTrip.Statement (.cmovle rA rB) :=
  fun _ _ => by simp [encode, encodeF2, decode, moveOfIfun]

theorem RoundTrip.cmovl (rA rB : Nibble) :
    RoundTrip.Statement (.cmovl rA rB) :=
  fun _ _ => by simp [encode, encodeF2, decode, moveOfIfun]

theorem RoundTrip.cmove (rA rB : Nibble) :
    RoundTrip.Statement (.cmove rA rB) :=
  fun _ _ => by simp [encode, encodeF2, decode, moveOfIfun]

theorem RoundTrip.cmovne (rA rB : Nibble) :
    RoundTrip.Statement (.cmovne rA rB) :=
  fun _ _ => by simp [encode, encodeF2, decode, moveOfIfun]

theorem RoundTrip.cmovge (rA rB : Nibble) :
    RoundTrip.Statement (.cmovge rA rB) :=
  fun _ _ => by simp [encode, encodeF2, decode, moveOfIfun]

theorem RoundTrip.cmovg (rA rB : Nibble) :
    RoundTrip.Statement (.cmovg rA rB) :=
  fun _ _ => by simp [encode, encodeF2, decode, moveOfIfun]

theorem RoundTrip.reservedCmov7 (rA rB : Nibble) :
    RoundTrip.Statement (.reservedCmov7 rA rB) :=
  fun _ _ => by simp [encode, encodeF2, decode, moveOfIfun]

theorem RoundTrip.reservedCmov8F (ifun rA rB : Nibble) :
    RoundTrip.Statement (.reservedCmov8F ifun rA rB) :=
  fun h _ => by
  have h : 8 ≤ ifun.toNat := by simpa [Instr.wf] using h
  simp [moveOfIfun_reserved h, encode, encodeF2, decode]

theorem RoundTrip.irmovq (ifun rA rB : Nibble) (V : Word) :
    RoundTrip.Statement (.irmovq ifun rA rB V) :=
  fun _ _ => by simp [encode, encodeF10, decode]

theorem RoundTrip.rmmovq (ifun rA rB : Nibble) (D : Word) :
    RoundTrip.Statement (.rmmovq ifun rA rB D) :=
  fun _ _ => by simp [encode, encodeF10, decode]

theorem RoundTrip.mrmovq (ifun rA rB : Nibble) (D : Word) :
    RoundTrip.Statement (.mrmovq ifun rA rB D) :=
  fun _ _ => by simp [encode, encodeF10, decode]

theorem RoundTrip.addq (rA rB : Nibble) :
    RoundTrip.Statement (.addq rA rB) :=
  fun _ _ => by simp [encode, encodeF2, decode, opOfIfun]

theorem RoundTrip.subq (rA rB : Nibble) :
    RoundTrip.Statement (.subq rA rB) :=
  fun _ _ => by simp [encode, encodeF2, decode, opOfIfun]

theorem RoundTrip.andq (rA rB : Nibble) :
    RoundTrip.Statement (.andq rA rB) :=
  fun _ _ => by simp [encode, encodeF2, decode, opOfIfun]

theorem RoundTrip.xorq (rA rB : Nibble) :
    RoundTrip.Statement (.xorq rA rB) :=
  fun _ _ => by simp [encode, encodeF2, decode, opOfIfun]

theorem RoundTrip.reservedOp47 (ifun rA rB : Nibble) :
    RoundTrip.Statement (.reservedOp47 ifun rA rB) :=
  fun h _ => by
  have h : 4 ≤ ifun.toNat ∧ ifun.toNat ≤ 7 := by simpa [Instr.wf] using h
  simp [opOfIfun_reserved47 h.1 h.2, encode, encodeF2, decode]

theorem RoundTrip.reservedOp8F (ifun rA rB : Nibble) :
    RoundTrip.Statement (.reservedOp8F ifun rA rB) :=
  fun h _ => by
  have h : 8 ≤ ifun.toNat := by simpa [Instr.wf] using h
  simp [opOfIfun_reserved8F h, encode, encodeF2, decode]

theorem RoundTrip.jmp (Dest : Word) :
    RoundTrip.Statement (.jmp Dest) :=
  fun _ _ => by simp [encode, encodeF9, decode, jumpOfIfun]

theorem RoundTrip.jle (Dest : Word) :
    RoundTrip.Statement (.jle Dest) :=
  fun _ _ => by simp [encode, encodeF9, decode, jumpOfIfun]

theorem RoundTrip.jl (Dest : Word) :
    RoundTrip.Statement (.jl Dest) :=
  fun _ _ => by simp [encode, encodeF9, decode, jumpOfIfun]

theorem RoundTrip.je (Dest : Word) :
    RoundTrip.Statement (.je Dest) :=
  fun _ _ => by simp [encode, encodeF9, decode, jumpOfIfun]

theorem RoundTrip.jne (Dest : Word) :
    RoundTrip.Statement (.jne Dest) :=
  fun _ _ => by simp [encode, encodeF9, decode, jumpOfIfun]

theorem RoundTrip.jge (Dest : Word) :
    RoundTrip.Statement (.jge Dest) :=
  fun _ _ => by simp [encode, encodeF9, decode, jumpOfIfun]

theorem RoundTrip.jg (Dest : Word) :
    RoundTrip.Statement (.jg Dest) :=
  fun _ _ => by simp [encode, encodeF9, decode, jumpOfIfun]

theorem RoundTrip.reservedJump7 (Dest : Word) :
    RoundTrip.Statement (.reservedJump7 Dest) :=
  fun _ _ => by simp [encode, encodeF9, decode, jumpOfIfun]

theorem RoundTrip.reservedJump8F (ifun : Nibble) (Dest : Word) :
    RoundTrip.Statement (.reservedJump8F ifun Dest) :=
  fun h _ => by
  have h : 8 ≤ ifun.toNat := by simpa [Instr.wf] using h
  simp [jumpOfIfun_reserved h, encode, encodeF9, decode]

theorem RoundTrip.call (ifun : Nibble) (Dest : Word) :
    RoundTrip.Statement (.call ifun Dest) :=
  fun _ _ => by simp [encode, encodeF9, decode]

theorem RoundTrip.ret (ifun : Nibble) :
    RoundTrip.Statement (.ret ifun) :=
  fun _ _ => by simp [encode, decode, Icode.ofNibble]

theorem RoundTrip.pushq (ifun rA rB : Nibble) :
    RoundTrip.Statement (.pushq ifun rA rB) :=
  fun _ _ => by simp [encode, encodeF2, decode]

theorem RoundTrip.popq (ifun rA rB : Nibble) :
    RoundTrip.Statement (.popq ifun rA rB) :=
  fun _ _ => by simp [encode, encodeF2, decode]

theorem RoundTrip.nonInstruction (icode ifun : Nibble) :
    RoundTrip.Statement (.nonInstruction icode ifun) :=
  fun h rest =>
  decode_nonInstruction (by simpa [Instr.wf] using h) ifun rest

end Sys2Proof.Laws
end

