-- ==== Sys2Proof/Tests/Slice0.lean ====
section
/-! SUPPORT. Tests and witnesses. Expected values come from spec/: the encodings of 30_encoding.md, the examples of
the instruction rules and the examples that 95_test_vectors.md section 1 transcribes; each test names its own. A
`witness_<Name>` shows concrete data that meets the hypotheses of `Obligations.<Name>`, clause by clause. -/

namespace Sys2Proof.Tests

open Sys2Proof.Machine Sys2Proof.Claims

/-! ### Small states -/

/-- The next state satisfies `p`. -/
def holds (o : Host.Outcome State Fault Refusal) (p : State → Bool) : Bool :=
  match o with
  | .next t => p t
  | .fault _ | .refused _ => false

/-- After reset, with `bs` in memory from `a` on and the next fetch at `a`. -/
def withBytes (a : Word) (bs : List Byte) : State :=
  { State.reset with mem := Memory.setBytes [] a.toNat bs, F := ⟨a⟩ }

/-- After reset, with one pipeline register replaced. -/
def withD (D : DReg) : State := { State.reset with D := D }
def withE (E : EReg) (cc : CC) : State := { State.reset with E := E, cc := cc }
def withM (M : MReg) : State := { State.reset with M := M }
def withW (W : WReg) : State := { State.reset with W := W }

/-- An instruction in E with the operands `u` and `v`. -/
def atE (icode : Icode) (ifun : Nibble) (u v : Word) (dstE : RegId) : EReg :=
  ⟨.aok, icode, ifun, 0, u, v, dstE, none, none, none⟩

/-- A load or store in M: `e` is valE, `a` is valA. -/
def atM (icode : Icode) (e a : Word) (dstE dstM : RegId) : MReg := ⟨.aok, icode, true, e, a, dstE, dstM⟩

/-! ### WellFormed: one ill-formed term for each check -/

theorem test_wf_refuses_reservedCmov8F : (Instr.reservedCmov8F 7 0 0).wf = false := by decide
theorem test_wf_refuses_reservedOp47 :
    (Instr.reservedOp47 3 0 0).wf = false ∧ (Instr.reservedOp47 8 0 0).wf = false := by decide
theorem test_wf_refuses_reservedOp8F : (Instr.reservedOp8F 7 0 0).wf = false := by decide
theorem test_wf_refuses_reservedJump8F : (Instr.reservedJump8F 7 0).wf = false := by decide
theorem test_wf_refuses_nonInstruction : (Instr.nonInstruction 11 0).wf = false := by decide
theorem test_wf_accepts_boundaries :
    (Instr.reservedCmov8F 8 0 0).wf = true ∧ (Instr.reservedOp47 4 0 0).wf = true ∧
    (Instr.reservedOp47 7 0 0).wf = true ∧ (Instr.reservedOp8F 8 0 0).wf = true ∧
    (Instr.reservedJump8F 8 0).wf = true ∧ (Instr.nonInstruction 12 0).wf = true := by decide

/-! ### Decoding: a word of every row, written out from 30_encoding.md R102, R103, R105, R114 -/

theorem test_decode_halt : decode [0x00] = .ok (.halt 0, []) := rfl
theorem test_decode_nop : decode [0x10] = .ok (.nop 0, []) := rfl
theorem test_decode_rrmovq : decode [0x20, 0x03] = .ok (.rrmovq 0 3, []) := rfl
theorem test_decode_cmovle : decode [0x21, 0x12] = .ok (.cmovle 1 2, []) := rfl
theorem test_decode_cmovl : decode [0x22, 0x12] = .ok (.cmovl 1 2, []) := rfl
theorem test_decode_cmove : decode [0x23, 0x12] = .ok (.cmove 1 2, []) := rfl
theorem test_decode_cmovne : decode [0x24, 0x12] = .ok (.cmovne 1 2, []) := rfl
theorem test_decode_cmovge : decode [0x25, 0x12] = .ok (.cmovge 1 2, []) := rfl
theorem test_decode_cmovg : decode [0x26, 0x12] = .ok (.cmovg 1 2, []) := rfl
theorem test_decode_reservedCmov7 : decode [0x27, 0x12] = .ok (.reservedCmov7 1 2, []) := rfl
theorem test_decode_reservedCmov8F : decode [0x2F, 0x12] = .ok (.reservedCmov8F 15 1 2, []) := rfl
theorem test_decode_irmovq :
    decode [0x30, 0xF4, 0x00, 0x01, 0, 0, 0, 0, 0, 0] = .ok (.irmovq 0 15 4 0x100, []) := rfl
theorem test_decode_rmmovq :
    decode [0x40, 0x03, 0x08, 0, 0, 0, 0, 0, 0, 0] = .ok (.rmmovq 0 0 3 8, []) := rfl
theorem test_decode_mrmovq :
    decode [0x50, 0x13, 0x08, 0, 0, 0, 0, 0, 0, 0x80] =
      .ok (.mrmovq 0 1 3 0x8000000000000008, []) := rfl
theorem test_decode_addq : decode [0x60, 0x03] = .ok (.addq 0 3, []) := rfl
theorem test_decode_subq : decode [0x61, 0x03] = .ok (.subq 0 3, []) := rfl
theorem test_decode_andq : decode [0x62, 0x03] = .ok (.andq 0 3, []) := rfl
theorem test_decode_xorq : decode [0x63, 0x03] = .ok (.xorq 0 3, []) := rfl
theorem test_decode_reservedOp47 : decode [0x67, 0x01] = .ok (.reservedOp47 7 0 1, []) := rfl
theorem test_decode_reservedOp8F : decode [0x6F, 0x01] = .ok (.reservedOp8F 15 0 1, []) := rfl
theorem test_decode_jmp :
    decode [0x70, 0x00, 0x02, 0, 0, 0, 0, 0, 0] = .ok (.jmp 0x200, []) := rfl
theorem test_decode_jle :
    decode [0x71, 0x00, 0x02, 0, 0, 0, 0, 0, 0] = .ok (.jle 0x200, []) := rfl
theorem test_decode_jl :
    decode [0x72, 0x00, 0x02, 0, 0, 0, 0, 0, 0] = .ok (.jl 0x200, []) := rfl
theorem test_decode_je :
    decode [0x73, 0x00, 0x02, 0, 0, 0, 0, 0, 0] = .ok (.je 0x200, []) := rfl
theorem test_decode_jne :
    decode [0x74, 0x00, 0x02, 0, 0, 0, 0, 0, 0] = .ok (.jne 0x200, []) := rfl
theorem test_decode_jge :
    decode [0x75, 0x00, 0x02, 0, 0, 0, 0, 0, 0] = .ok (.jge 0x200, []) := rfl
theorem test_decode_jg :
    decode [0x76, 0x00, 0x02, 0, 0, 0, 0, 0, 0] = .ok (.jg 0x200, []) := rfl
theorem test_decode_reservedJump7 :
    decode [0x77, 0x00, 0x02, 0, 0, 0, 0, 0, 0] = .ok (.reservedJump7 0x200, []) := rfl
theorem test_decode_reservedJump8F :
    decode [0x7F, 0x00, 0x02, 0, 0, 0, 0, 0, 0] = .ok (.reservedJump8F 15 0x200, []) := rfl
theorem test_decode_call :
    decode [0x80, 0x40, 0, 0, 0, 0, 0, 0, 0] = .ok (.call 0 0x40, []) := rfl
theorem test_decode_ret : decode [0x90] = .ok (.ret 0, []) := rfl
theorem test_decode_pushq : decode [0xA0, 0x4F] = .ok (.pushq 0 4 15, []) := rfl
theorem test_decode_popq : decode [0xB0, 0x2F] = .ok (.popq 0 2 15, []) := rfl
theorem test_decode_nonInstruction :
    decode [0xC0] = .ok (.nonInstruction 12 0, []) ∧
      decode [0xFF] = .ok (.nonInstruction 15 15, []) := ⟨rfl, rfl⟩

/-- Bytes that end too early are rejected by name (30_encoding.md R103). -/
theorem test_decode_cut_short :
    decode [] = .error .noOpcodeByte ∧ decode [0x60] = .error .noRegisterByte ∧
      decode [0x80, 0, 0, 0, 0, 0, 0, 0] = .error .noConstant := ⟨rfl, rfl, rfl⟩

/-- The host's words: bit 0 is bit 0 of the first byte, and missing operand bytes are 0. -/
theorem test_decodeTableWord :
    decodeTableWord 8 0x20 = some (.rrmovq 0 0) ∧
      decodeTableWord 80 0x0102030405060708F330 = some (.irmovq 0 15 3 0x0102030405060708) := by
  decide

/-! ### Fetch -/

/-- 40_fetch.md R153, first example. -/
theorem test_fetch_irmovq :
    holds (step (withBytes 0x100 [0x30, 0xF3, 0x0A, 0, 0, 0, 0, 0, 0, 0])) (fun t =>
      t.D == ⟨.aok, .irmovq, 0, some 15, some 3, 0x0A, 0x10A⟩ && t.F.predPC == 0x10A) = true := by
  decide

/-- 40_fetch.md R153, second example. -/
theorem test_fetch_je :
    holds (step (withBytes 0x100 [0x73, 0x00, 0x02, 0, 0, 0, 0, 0, 0])) (fun t =>
      t.D.valP == 0x109 && t.F.predPC == 0x200) = true := by decide

/-- 40_fetch.md R145 with REG_F_IS_NONE. -/
theorem test_fetch_register_f_is_none :
    holds (step { withBytes 0 [0x20, 0xF3] with cfg := { Config.default with regFIsNone := true } })
      (fun t => t.D.rA == none && t.D.rB == some 3) = true := by decide

/-- 40_fetch.md R146: nothing beyond MEM_SIZE can be fetched. -/
theorem test_fetch_out_of_range :
    holds (step (withBytes 0x1000 [])) (fun t => t.D == ⟨.adr, .halt, 0, none, none, 0, 0⟩) = true := by
  decide

/-! ### Decode -/

/-- 41_decode.md R189: `addq %rax, %rbx` in D, and three producers in flight. -/
theorem test_decode_forwarding :
    holds (step { State.reset with
        D := ⟨.aok, .opq, 0, some 0, some 3, 0, 0⟩
        E := atE .opq 0 10 10 (some 3)
        M := atM .irmovq 10 0 (some 0) none
        W := ⟨.aok, .irmovq, 7, 0, some 0, none⟩
        x := ((Vector.replicate 16 0).set 0 1).set 3 2 }) (fun t =>
      t.E.srcA == some 0 && t.E.srcB == some 3 && t.E.dstE == some 3 && t.E.valA == 10 &&
        t.E.valB == 20) = true := by decide

/-- 46_control.md R379: CALL carries its return address in valA. -/
theorem test_decode_call_carries_return_address :
    holds (step (withD ⟨.aok, .call, 0, none, none, 0x40, 0x19⟩)) (fun t =>
      t.E.valA == 0x19 && t.E.dstE == some 4 && t.E.srcB == some 4) = true := by decide

/-! ### Execute -/

/-- 42_execute.md R214: 3 - 5. -/
theorem test_execute_subq :
    holds (step (withE (atE .opq 1 5 3 (some 3)) ⟨true, false, false⟩)) (fun t =>
      t.M.valE == 0xFFFFFFFFFFFFFFFE && t.cc == ⟨false, true, false⟩) = true := by decide

/-- 45_alu.md R342: the most negative number minus 1. -/
theorem test_execute_subq_overflow :
    holds (step (withE (atE .opq 1 1 0x8000000000000000 (some 3)) ⟨true, false, false⟩)) (fun t =>
      t.M.valE == 0x7FFFFFFFFFFFFFFF && t.cc == ⟨false, false, true⟩) = true := by decide

/-- 95_test_vectors.md E5. -/
theorem test_execute_addq_overflow :
    holds (step (withE (atE .opq 0 0x7FFFFFFFFFFFFFFF 0x7FFFFFFFFFFFFFFF (some 3))
        ⟨true, false, false⟩)) (fun t =>
      t.M.valE == 0xFFFFFFFFFFFFFFFE && t.cc == ⟨false, true, true⟩) = true := by decide

/-- 45_alu.md R341: 0xFFFFFFFFFFFFFFFF + 1 = 0 without overflow. -/
theorem test_execute_addq_wraps :
    holds (step (withE (atE .opq 0 1 0xFFFFFFFFFFFFFFFF (some 3)) ⟨false, true, true⟩)) (fun t =>
      t.M.valE == 0 && t.cc == ⟨true, false, false⟩) = true := by decide

/-- 95_test_vectors.md E4 and E3, and 45_alu.md R343: OF is cleared. -/
theorem test_execute_andq :
    holds (step (withE (atE .opq 2 0xFF 0x0F (some 3)) ⟨true, true, true⟩)) (fun t =>
      t.M.valE == 0x0F && t.cc == ⟨false, false, false⟩) = true := by decide
theorem test_execute_xorq :
    holds (step (withE (atE .opq 3 0xF0 0x0F (some 3)) ⟨true, true, true⟩)) (fun t =>
      t.M.valE == 0xFF && t.cc == ⟨false, false, false⟩) = true := by decide

/-- 45_alu.md R345: `6F 01`, and the first reserved function. -/
theorem test_execute_reservedOp8F :
    holds (step (withE (atE .opq 15 5 3 (some 1)) ⟨false, true, true⟩)) (fun t =>
      t.M.valE == 0 && t.M.dstE == some 1 && t.cc == ⟨true, false, false⟩) = true := by decide
theorem test_execute_reservedOp47 :
    holds (step (withE (atE .opq 4 5 3 (some 1)) ⟨false, true, true⟩)) (fun t =>
      t.M.valE == 0 && t.cc == ⟨true, false, false⟩) = true := by decide

/-- A conditional move of 5 to register 2, with the flags `cc`: what it leaves in M. -/
def movesTo (ifun : Nibble) (cc : CC) (dst : RegId) : Bool :=
  holds (step (withE (atE .rrmovq ifun 5 0 (some 2)) cc)) fun t =>
    t.M.valE == 5 && t.M.dstE == dst && t.cc == cc

/-- The examples of 44_misc_and_moves.md R304 to R311. -/
theorem test_execute_rrmovq : movesTo 0 ⟨false, false, false⟩ (some 2) = true := by decide
theorem test_execute_cmovle : movesTo 1 ⟨true, false, false⟩ (some 2) = true := by decide
theorem test_execute_cmovl :
    movesTo 2 ⟨false, true, false⟩ (some 2) = true ∧ movesTo 2 ⟨false, true, true⟩ none = true := by
  decide
theorem test_execute_cmove : movesTo 3 ⟨false, true, true⟩ none = true := by decide
theorem test_execute_cmovne : movesTo 4 ⟨false, false, false⟩ (some 2) = true := by decide
theorem test_execute_cmovge : movesTo 5 ⟨false, true, true⟩ (some 2) = true := by decide
theorem test_execute_cmovg : movesTo 6 ⟨true, false, false⟩ none = true := by decide
theorem test_execute_reservedCmov7 : movesTo 7 ⟨true, true, true⟩ none = true := by decide
theorem test_execute_reservedCmov8F : movesTo 15 ⟨true, false, false⟩ none = true := by decide

/-- A jump from 0x100 with the flags `cc`: whether it is taken, so where the tick after its Execute tick fetches. -/
def jumpTaken (ifun : Nibble) (cc : CC) (taken : Bool) : Bool :=
  holds (step (withE (atE .jxx ifun 0x109 0 none) cc)) fun t =>
    t.M.Cnd == taken && t.cc == cc && (t.fetchPC == 0x109) == !taken

/-- The examples of 46_control.md R371 to R378. -/
theorem test_execute_jmp : jumpTaken 0 ⟨false, false, false⟩ true = true := by decide
theorem test_execute_jle : jumpTaken 1 ⟨false, true, true⟩ false = true := by decide
theorem test_execute_jl : jumpTaken 2 ⟨false, true, false⟩ true = true := by decide
theorem test_execute_je : jumpTaken 3 ⟨true, false, false⟩ true = true := by decide
theorem test_execute_jne : jumpTaken 4 ⟨true, false, false⟩ false = true := by decide
theorem test_execute_jge : jumpTaken 5 ⟨false, true, true⟩ true = true := by decide
theorem test_execute_jg : jumpTaken 6 ⟨true, false, false⟩ false = true := by decide
theorem test_execute_reservedJump7 : jumpTaken 7 ⟨true, false, false⟩ false = true := by decide
theorem test_execute_reservedJump8F : jumpTaken 15 ⟨true, false, false⟩ false = true := by decide

/-! ### Memory -/

/-- 44_misc_and_moves.md R313: bytes 88 77 66 55 44 33 22 11 at 0x108. -/
theorem test_memory_rmmovq :
    holds (step (withM (atM .rmmovq 0x108 0x1122334455667788 none none))) (fun t =>
      t.mem == [(0x108, 0x88), (0x109, 0x77), (0x10A, 0x66), (0x10B, 0x55), (0x10C, 0x44),
        (0x10D, 0x33), (0x10E, 0x22), (0x10F, 0x11)] && t.W.stat == .aok) = true := by decide

/-- 43_memory_writeback.md R232, R234 at the boundary of 20_memory.md R72: 0xFF9 + 8 > 0x1000. -/
theorem test_memory_rmmovq_out_of_range :
    holds (step (withM (atM .rmmovq 0xFF9 0x1122334455667788 none none))) (fun t =>
      t.mem == [] && t.W.stat == .adr) = true := by decide

/-- 44_misc_and_moves.md R314. -/
theorem test_memory_mrmovq :
    holds (step { withM (atM .mrmovq 0x108 0 none (some 1)) with
        mem := Memory.setBytes [] 0x108 [0x88, 0x77, 0x66, 0x55, 0x44, 0x33, 0x22, 0x11] }) (fun t =>
      t.W.valM == 0x1122334455667788 && t.W.dstM == some 1 && t.W.stat == .aok) = true := by decide

/-- 95_test_vectors.md E10. -/
theorem test_memory_mrmovq_out_of_range :
    holds (step (withM (atM .mrmovq 0xFF9 0 none (some 1)))) (fun t =>
      t.W.valM == 0 && t.W.stat == .adr && t.running) = true := by decide

/-- 46_control.md R379: 0x19 at 0x1F8. -/
theorem test_memory_call :
    holds (step (withM (atM .call 0x1F8 0x19 (some 4) none))) (fun t =>
      t.mem == [(0x1F8, 0x19)] && t.W.valE == 0x1F8) = true := by decide

/-- 46_control.md R380: RET reads at valA and is fetched from in W. -/
theorem test_memory_ret :
    holds (step { withM (atM .ret 0x200 0x1F8 (some 4) none) with mem := [(0x1F8, 0x19)] }) (fun t =>
      t.W.valM == 0x19 && t.fetchPC == 0x19) = true := by decide

/-- 47_stack.md R410: 5 at 0x1F8. -/
theorem test_memory_pushq :
    holds (step (withM (atM .pushq 0x1F8 5 (some 4) none))) (fun t => t.mem == [(0x1F8, 5)]) = true := by
  decide

/-- 47_stack.md R411: the old stack pointer is the address. -/
theorem test_memory_popq :
    holds (step { withM (atM .popq 0x200 0x1F8 (some 4) (some 2)) with mem := [(0x1F8, 5)] })
      (fun t => t.W.valM == 5) = true := by decide

/-! ### Writeback -/

/-- 44_misc_and_moves.md R312. -/
theorem test_writeback_irmovq :
    holds (step (withW ⟨.aok, .irmovq, 0x100, 0, some 4, none⟩)) (fun t =>
      t.x == (Vector.replicate 16 0).set 4 0x100 && t.running) = true := by decide

/-- 47_stack.md R411: `B0 4F` sets x[4] = 5. -/
theorem test_writeback_popq_rsp :
    holds (step (withW ⟨.aok, .popq, 0x200, 5, some 4, some 4⟩)) (fun t => t.x[4] == 5) = true := by
  decide

/-- 44_misc_and_moves.md R301: done, and no register write. -/
theorem test_writeback_halt :
    holds (step (withW ⟨.hlt, .halt, 0, 0, none, none⟩)) (fun t =>
      !t.running && t.finalStat == some .hlt && t.x == Vector.replicate 16 0) = true := by decide

/-- 44_misc_and_moves.md R303 under both policies. -/
theorem test_writeback_nonInstruction :
    holds (step (withW ⟨.ins, .codeF, 0, 0, none, none⟩)) (fun t => t.running) = true ∧
    holds (step { withW ⟨.ins, .codeF, 0, 0, none, none⟩ with
        cfg := { Config.default with stopPolicy := .anyNonAok } }) (fun t =>
      !t.running && t.finalStat == some .ins) = true := by decide

/-- 60_exceptions.md R514: no tick once stopped. -/
theorem test_stopped_has_no_tick :
    step { State.reset with running := false } = .fault .stopped := rfl

/-- 44_misc_and_moves.md R302. -/
theorem test_nop_changes_nothing :
    holds (exec (.nop 0) State.reset) (fun t =>
      t.arch == State.reset.arch && t.F.predPC == 1 && t.running) = true := by decide

/-! ### Witnesses: encoding and fetch -/

theorem witness_DecodeOfEncode :
    (Instr.reservedOp47 7 1 2).wf = true ∧ (Instr.nonInstruction 12 15).wf = true ∧
      (Instr.irmovq 15 15 15 0xFFFFFFFFFFFFFFFF).wf = true := by decide

theorem witness_EncodeOfDecode : decode [0x60, 0x12, 0x99] = .ok (.addq 1 2, [0x99]) := rfl

theorem witness_FirstByteSelectsOneRow : ([0, 0, 0, 0, 0, 0, 0, 0, 0] : List Byte).length = 9 := rfl

/-- Nine bytes after 0x30 suffice, eight do not. -/
theorem witness_LengthFromIcode :
    Reference.length (.ofNibble (hiNibble 0x30)) ≤ ([0, 0, 0, 0, 0, 0, 0, 0, 0] : List Byte).length + 1 ∧
    ([0, 0, 0, 0, 0, 0, 0, 0] : List Byte).length + 1 < Reference.length (.ofNibble (hiNibble 0x30)) := by
  decide

/-- The last ten bytes of memory. -/
theorem witness_StepRunsDecodedInstruction :
    (Instr.irmovq 0 15 3 0xFF).wf = true ∧
    BytesAtFetch (withBytes 0xFF6 (encode (.irmovq 0 15 3 0xFF))) (encode (.irmovq 0 15 3 0xFF)) ∧
    decode (withBytes 0xFF6 (encode (.irmovq 0 15 3 0xFF))).fetchWindow =
      .ok (.irmovq 0 15 3 0xFF, []) := by
  refine ⟨rfl, ?_, rfl⟩
  unfold BytesAtFetch
  decide

/-- The opcode byte out of range; and at the last address, the register byte out of range. -/
theorem witness_FetchOutOfRangeStagesAddressError :
    (withBytes 0x1000 []).running = true ∧
    getByte (withBytes 0x1000 []).cfg (withBytes 0x1000 []).mem (withBytes 0x1000 []).fetchPC = none ∧
    getByte (withBytes 0xFFF [0x30]).cfg (withBytes 0xFFF [0x30]).mem
      (withBytes 0xFFF [0x30]).fetchPC = some 0x30 ∧
    1 < Reference.length (.ofNibble (hiNibble 0x30)) ∧
    getByte (withBytes 0xFFF [0x30]).cfg (withBytes 0xFFF [0x30]).mem
      ((withBytes 0xFFF [0x30]).fetchPC + BitVec.ofNat 64 1) = none := by decide

/-- The last address at which a placement fits, over bytes that are there already. -/
theorem witness_PlacedWordIsRun :
    (withBytes 0xFF6 [1, 2, 3]).mem.wf ∧ (withBytes 0xFF6 [1, 2, 3]).cfg.wf ∧
    (withBytes 0xFF6 [1, 2, 3]).fetchPC.toNat + 10 ≤ (withBytes 0xFF6 [1, 2, 3]).cfg.memSize ∧
    decodeTableWord 8 0x60 = some (.addq 0 0) := by decide

/-- A mispredicted jump in M with a RET in W; a RET in W with a correct jump in M; neither. -/
theorem witness_FetchAddressPriority :
    let both := { withM ⟨.aok, .jxx, false, 0, 0x109, none, none⟩ with
      W := ⟨.aok, .ret, 8, 0x19, some 4, none⟩ }
    let ret := { withM ⟨.aok, .jxx, true, 0, 0x109, none, none⟩ with
      W := ⟨.aok, .ret, 8, 0x19, some 4, none⟩ }
    (both.M.icode = .jxx ∧ both.M.Cnd = false ∧ both.W.icode = .ret) ∧
    (¬(ret.M.icode = .jxx ∧ ret.M.Cnd = false) ∧ ret.W.icode = .ret) ∧
    (¬(State.reset.M.icode = .jxx ∧ State.reset.M.Cnd = false) ∧ State.reset.W.icode ≠ .ret) := by
  decide

theorem witness_FallthroughIsAddressPlusLength :
    (Instr.popq 0 2 15).wf = true ∧ State.reset.running = true := by decide

/-- JXX, CALL, and RET, which is neither. -/
theorem witness_JumpsAndCallsPredictedTaken :
    (Instr.je 0x200).wf = true ∧ (Instr.ret 0).wf = true ∧ State.reset.running = true ∧
    holds (exec (.je 0x200) State.reset) (fun t => t.D.icode == .jxx) = true ∧
    holds (exec (.call 0 0x200) State.reset) (fun t => t.D.icode == .call) = true ∧
    holds (exec (.ret 0) State.reset) (fun t => t.D.icode != .jxx && t.D.icode != .call) = true := by
  decide

/-- The last instruction code 0xB and the first that is none, 0xC; and HALT. -/
theorem witness_FetchStatusFromIcode :
    (Instr.nonInstruction 12 0).wf = true ∧ State.reset.running = true ∧
    holds (exec (.nonInstruction 12 0) State.reset)
      (fun t => Reference.notInstruction t.D.icode) = true ∧
    holds (exec (.halt 0) State.reset) (fun t => t.D.icode == .halt) = true ∧
    holds (exec (.popq 0 2 15) State.reset)
      (fun t => t.D.icode != .halt && !Reference.notInstruction t.D.icode) = true := by decide

theorem witness_FetchedInstructionTouchesOnlyDAndPrediction :
    ∃ t u, exec (.halt 0) State.reset = .next t ∧ exec (.jmp 5) State.reset = .next u :=
  ⟨_, _, exec_next_iff.2 ⟨rfl, rfl⟩, exec_next_iff.2 ⟨rfl, rfl⟩⟩

theorem witness_StepIsTheRestatedFunction : (withBytes 0 [0x60, 0x12]).running = true := rfl

theorem witness_OneSuccessorExactlyWhileRunning :
    State.reset.running = true ∧ { State.reset with running := false }.running = false := by decide

/-! ### Witnesses: Decode -/

/-- An instruction of the icode in D, with registers 1 and 2. -/
def inD (icode : Icode) : State := withD ⟨.aok, icode, 0, some 1, some 2, 0, 9⟩

theorem witness_SourceATable :
    (inD .pushq).running = true ∧ (inD .pushq).D.icode ∈ [Icode.rrmovq, .rmmovq, .opq, .pushq] ∧
    (inD .ret).D.icode ∈ [Icode.popq, .ret] ∧
    (inD .call).D.icode ∈ [Icode.halt, .nop, .irmovq, .mrmovq, .jxx, .call, .codeC, .codeD, .codeE,
      .codeF] := by decide

theorem witness_OtherRoleTables :
    (inD .opq).running = true ∧ (inD .opq).D.icode ∈ [Icode.opq, .rmmovq, .mrmovq] ∧
    (inD .ret).D.icode ∈ [Icode.pushq, .popq, .call, .ret] ∧
    (inD .rrmovq).D.icode ∉ [Icode.opq, .rmmovq, .mrmovq, .pushq, .popq, .call, .ret] ∧
    (inD .irmovq).D.icode ∈ [Icode.rrmovq, .irmovq, .opq] ∧
    (inD .mrmovq).D.icode ∉ [Icode.rrmovq, .irmovq, .opq, .pushq, .popq, .call, .ret] ∧
    (inD .popq).D.icode ∈ [Icode.mrmovq, .popq] ∧
    (inD .codeC).D.icode ∉ [Icode.mrmovq, .popq] := by decide

/-- An `addq` of registers 1 and 2 in D behind producers of the given registers in E, M and W. -/
def behind (e m w : RegId) : State :=
  { inD .opq with
    E := atE .irmovq 0 0 0 e
    M := atM .irmovq 5 0 m none
    W := ⟨.aok, .irmovq, 6, 0, w, none⟩ }

/-- Both operands; register 2 from Execute, from M, from W and from the file; and RNONE. -/
theorem witness_ForwardingPriority :
    ∃ t t1 t2 t3 t4, step (behind (some 2) (some 2) (some 2)) = .next t ∧ t.M.dstE = some 2 ∧
      Resolved (behind (some 2) (some 2) (some 2)) t (some 2) t.E.valB ∧
      Resolved (behind (some 2) (some 2) (some 2)) t (some 1) t.E.valA ∧
    step (behind none (some 2) (some 2)) = .next t1 ∧
      Resolved (behind none (some 2) (some 2)) t1 (some 2) t1.E.valB ∧
      t1.M.dstE ≠ some 2 ∧ (behind none (some 2) (some 2)).M.dstE = some 2 ∧
    step (behind none none (some 2)) = .next t2 ∧
      Resolved (behind none none (some 2)) t2 (some 2) t2.E.valB ∧ t2.M.dstE ≠ some 2 ∧
      (behind none none (some 2)).M.dstE ≠ some 2 ∧ (behind none none (some 2)).W.dstE = some 2 ∧
    step (behind none none none) = .next t3 ∧
      Resolved (behind none none none) t3 (some 2) t3.E.valB ∧ t3.M.dstE ≠ some 2 ∧
      (behind none none none).M.dstE ≠ some 2 ∧ (behind none none none).W.dstE ≠ some 2 ∧
    step (inD .nop) = .next t4 ∧ Resolved (inD .nop) t4 none t4.E.valB := by
  refine ⟨_, _, _, _, _, step_next_iff.2 ⟨rfl, rfl⟩, rfl, .inl ⟨rfl, rfl⟩,
    .inr ⟨by decide, by decide, rfl, rfl⟩, step_next_iff.2 ⟨rfl, rfl⟩, .inl ⟨rfl, rfl⟩, by decide, rfl,
    step_next_iff.2 ⟨rfl, rfl⟩, .inl ⟨rfl, rfl⟩, by decide, by decide, rfl,
    step_next_iff.2 ⟨rfl, rfl⟩, .inl ⟨rfl, rfl⟩, by decide, by decide, by decide,
    step_next_iff.2 ⟨rfl, rfl⟩, .inl ⟨rfl, rfl⟩⟩

theorem witness_CallAndJumpCarryFallthrough :
    (inD .call).running = true ∧ (inD .call).D.icode = .call ∧ (inD .jxx).D.icode = .jxx := by decide

/-- Two different states that differ in loads and memory only. -/
theorem witness_LoadsAreNotForwarded :
    let s := { inD .opq with M := atM .mrmovq 8 0 none (some 1), W := ⟨.aok, .popq, 8, 7, some 4, some 2⟩ }
    let s' := { inD .opq with
      M := atM .mrmovq 8 0 none (some 9), W := ⟨.aok, .popq, 8, 0, some 4, none⟩, mem := [(8, 1)] }
    s.running = true ∧ s ≠ s' ∧ forgetLoads s = forgetLoads s' := by decide

/-- A POPQ of register 2 in W, with an OPQ that names it in D; and an IRMOVQ to register 2 in W. -/
theorem witness_DecodeReadsBeforeWriteback :
    let pop := { inD .opq with W := ⟨.aok, .popq, 8, 7, some 4, some 2⟩ }
    let irm := { inD .opq with W := ⟨.aok, .irmovq, 6, 0, some 2, none⟩ }
    pop.running = true ∧ pop.W.icode ≠ .halt ∧ pop.W.dstM = some 2 ∧
    (pop.W.dstE = some 4 ∧ pop.W.dstM ≠ some 4) ∧
    ∃ t u, step pop = .next t ∧ step irm = .next u ∧
      Resolved pop t (some 2) t.E.valB ∧ t.M.dstE ≠ some 2 ∧ pop.M.dstE ≠ some 2 ∧
      pop.W.dstE ≠ some 2 ∧
      Resolved irm u (some 2) u.E.valB ∧ u.M.dstE ≠ some 2 ∧ irm.M.dstE ≠ some 2 ∧
      irm.W.dstE = some 2 := by
  refine ⟨rfl, by decide, rfl, by decide, _, _, step_next_iff.2 ⟨rfl, rfl⟩,
    step_next_iff.2 ⟨rfl, rfl⟩, .inl ⟨rfl, rfl⟩, by decide, by decide, by decide, .inl ⟨rfl, rfl⟩,
    by decide, by decide, rfl⟩

/-! ### Witnesses: Execute -/

/-- An instruction of the icode and ifun in E. -/
def inE (icode : Icode) (ifun : Nibble) : State := withE (atE icode ifun 5 3 (some 2)) ⟨false, true, false⟩

theorem witness_ExecuteResult :
    (inE .opq 0).running = true ∧ (inE .rrmovq 0).E.icode = .rrmovq ∧
    (inE .irmovq 0).E.icode = .irmovq ∧ (inE .mrmovq 0).E.icode ∈ [Icode.rmmovq, .mrmovq] ∧
    (inE .pushq 0).E.icode ∈ [Icode.call, .pushq] ∧ (inE .ret 0).E.icode ∈ [Icode.ret, .popq] ∧
    ((inE .opq 0).E.icode = .opq ∧ (inE .opq 0).E.ifun = 0) ∧
    ((inE .opq 1).E.icode = .opq ∧ (inE .opq 1).E.ifun = 1) ∧
    ((inE .opq 2).E.icode = .opq ∧ (inE .opq 2).E.ifun = 2) ∧
    ((inE .opq 3).E.icode = .opq ∧ (inE .opq 3).E.ifun = 3) ∧
    ((inE .opq 4).E.icode = .opq ∧ 4 ≤ (inE .opq 4).E.ifun.toNat) ∧
    (inE .codeF 0).E.icode ∈ [Icode.halt, .nop, .jxx, .codeC, .codeD, .codeE, .codeF] := by decide

theorem witness_FlagsFromOperation :
    (inE .opq 0).running = true ∧ (inE .irmovq 0).E.icode ≠ .opq ∧ (inE .opq 0).E.icode = .opq ∧
    (inE .opq 0).E.ifun = 0 ∧ (inE .opq 1).E.ifun = 1 ∧ 2 ≤ (inE .opq 2).E.ifun.toNat ∧
    2 ≤ (inE .opq 15).E.ifun.toNat := by decide

theorem witness_ConditionFromFlags :
    (inE .jxx 15).running = true ∧ (inE .rrmovq 6).E.icode = .rrmovq ∧ (inE .jxx 15).E.icode = .jxx ∧
    (inE .nop 0).E.icode = .nop ∧ (inE .halt 0).E.icode = .halt ∧
    (inE .codeC 0).E.icode ∉ [Icode.rrmovq, .jxx, .nop, .halt] := by decide

/-- A false and a true conditional move, another instruction, and a reader of the destination in D. -/
theorem witness_FalseMoveLosesDestination :
    (inE .rrmovq 3).running = true ∧ (inE .rrmovq 3).E.icode = .rrmovq ∧
    holds (step (inE .rrmovq 3)) (fun t => !t.M.Cnd) = true ∧
    holds (step (inE .rrmovq 4)) (fun t => t.M.Cnd) = true ∧ (inE .opq 0).E.icode ≠ .rrmovq ∧
    ∃ t u, step { inE .rrmovq 4 with D := (inD .opq).D } = .next t ∧
      Resolved { inE .rrmovq 4 with D := (inD .opq).D } t (some 2) t.E.valB ∧ t.M.dstE = some 2 ∧
      step { inE .rrmovq 3 with D := (inD .opq).D } = .next u ∧
      Resolved { inE .rrmovq 3 with D := (inD .opq).D } u (some 2) u.E.valB ∧ u.M.dstE ≠ some 2 ∧
      (inE .rrmovq 3).M.dstE ≠ some 2 ∧ (inE .rrmovq 3).W.dstE ≠ some 2 := by
  refine ⟨rfl, rfl, by decide, by decide, by decide, _, _, step_next_iff.2 ⟨rfl, rfl⟩, .inl ⟨rfl, rfl⟩,
    rfl, step_next_iff.2 ⟨rfl, rfl⟩, .inl ⟨rfl, rfl⟩, by decide, by decide, by decide⟩

/-! ### Witnesses: Memory -/

/-- The boundary of R72 at MEM_SIZE 0x1000; and of the alignment check. -/
theorem inRange8_boundary :
    InRange8 .default 0xFF8 ∧ ¬InRange8 .default 0xFF9 ∧
    InRange8 { Config.default with longAlignCheck := true } 0xFF8 ∧
    ¬InRange8 { Config.default with longAlignCheck := true } 0xFF4 := by
  unfold InRange8
  decide

/-- A load at the last word of memory and one past it, at valE and at valA. -/
theorem witness_LoadReadsWord :
    let at8 := withM (atM .mrmovq 0xFF8 0 none (some 1))
    let pop9 := withM (atM .popq 8 0xFF9 (some 4) (some 1))
    at8.running = true ∧ at8.M.icode ∈ [Icode.mrmovq, .popq, .ret] ∧
    InRange8 at8.cfg (if at8.M.icode = .mrmovq then at8.M.valE else at8.M.valA) ∧
    pop9.M.icode ∈ [Icode.mrmovq, .popq, .ret] ∧
    ¬InRange8 pop9.cfg (if pop9.M.icode = .mrmovq then pop9.M.valE else pop9.M.valA) :=
  ⟨rfl, by decide, inRange8_boundary.1, by decide, inRange8_boundary.2.1⟩

/-- A store at the last word of memory and one past it. -/
theorem witness_StoreWritesWord :
    let at8 := withM (atM .rmmovq 0xFF8 5 none none)
    let at9 := withM (atM .call 0xFF9 5 (some 4) none)
    at8.running = true ∧ at8.mem.wf ∧ at8.M.icode ∈ [Icode.rmmovq, .pushq, .call] ∧
    InRange8 at8.cfg at8.M.valE ∧ at9.M.icode ∈ [Icode.rmmovq, .pushq, .call] ∧
    ¬InRange8 at9.cfg at9.M.valE :=
  ⟨rfl, by decide, by decide, inRange8_boundary.1, by decide, inRange8_boundary.2.1⟩

theorem witness_OtherInstructionsLeaveMemory :
    (withM (atM .codeC 8 8 none none)).running = true ∧
    (withM (atM .codeC 8 8 none none)).M.icode ∈
      [Icode.halt, .nop, .rrmovq, .irmovq, .opq, .jxx, .codeC, .codeD, .codeE, .codeF] ∧
    (withM (atM .ret 8 8 none none)).M.icode ∈ [Icode.mrmovq, .popq, .ret] ∧
    (withM (atM .call 8 8 none none)).M.icode ∈ [Icode.rmmovq, .pushq, .call] := by decide

/-- A store in M and the load of the same word in E; the run goes on. -/
theorem witness_LoadAfterStoreReadsStored :
    let s := { withM (atM .rmmovq 0xFF8 5 none none) with
      E := ⟨.aok, .mrmovq, 0, 8, 0, 0xFF0, none, some 1, none, none⟩ }
    s.running = true ∧ s.mem.wf ∧ s.M.icode ∈ [Icode.rmmovq, .pushq, .call] ∧
    InRange8 s.cfg s.M.valE ∧ s.E.icode = .mrmovq ∧ s.E.valB + s.E.valC = s.M.valE ∧
    holds (step s) (fun t => t.running) = true :=
  ⟨rfl, by decide, by decide, inRange8_boundary.1, rfl, by decide, by decide⟩

/-! ### Witnesses: the invariant, Writeback and the stop -/

theorem reset_inv : State.reset.Inv := by
  refine ⟨by decide, by decide, by decide, ⟨?_, ?_, ?_, ?_, ?_⟩, ⟨?_, ?_, ?_, ?_, ?_, ?_⟩,
    ⟨?_, ?_, ?_, ?_, ?_, ?_⟩, ⟨?_, ?_, ?_, ?_, ?_⟩, rfl⟩ <;>
  simp [State.reset, DReg.bubble, EReg.bubble, MReg.bubble, WReg.bubble, Stat.fitsBeforeMemory,
    Reference.notInstruction, RegId.allowed, DestinationsFit, CndFits, Stat.fitsInW]

/-- The invariant with another W. -/
theorem withW_inv {W : WReg} (h : W.Inv .default) : (withW W).Inv :=
  ⟨reset_inv.cfg, reset_inv.memWf, reset_inv.memWithin, reset_inv.D, reset_inv.E, reset_inv.M, h,
    reset_inv.final⟩

/-- A halt; dstE only; dstM only; neither; and a state of the invariant with a halt in W. -/
theorem witness_WritebackWritesDestinations :
    let irm := withW ⟨.aok, .irmovq, 6, 0, some 2, none⟩
    let load := withW ⟨.aok, .mrmovq, 6, 7, none, some 3⟩
    let halt := withW ⟨.hlt, .halt, 0, 0, none, none⟩
    irm.running = true ∧ irm.W.icode ≠ .halt ∧ (irm.W.dstE = some 2 ∧ irm.W.dstM ≠ some 2) ∧
    (load.W.dstM = some 3 ∧ load.W.dstE ≠ some 3) ∧ (irm.W.dstE ≠ some 15 ∧ irm.W.dstM ≠ some 15) ∧
    halt.W.icode = .halt ∧ halt.Inv := by
  refine ⟨rfl, by decide, by decide, by decide, by decide, rfl, withW_inv ⟨?_, ?_, ?_, ?_, ?_⟩⟩ <;>
  simp [Stat.fitsBeforeMemory, RegId.allowed, DestinationsFit, Stat.fitsInW]

theorem witness_PopToStackPointerKeepsLoadedWord :
    let s := withW ⟨.aok, .popq, 0x200, 5, some 4, some 4⟩
    s.Inv ∧ s.running = true ∧ s.W.dstE = some 4 ∧ s.W.dstM = some 4 := by
  refine ⟨withW_inv ⟨?_, ?_, ?_, ?_, ?_⟩, rfl, rfl, rfl⟩ <;>
  simp [Stat.fitsBeforeMemory, Reference.notInstruction, RegId.allowed, DestinationsFit, Stat.fitsInW,
    readsMemory, RSP, Config.default]

/-- A stop by a halt, a stop by an error under ANY_NON_AOK, and none. -/
theorem witness_StopConditionAndFinalStatus :
    let halt := withW ⟨.hlt, .halt, 0, 0, none, none⟩
    let error := { withW ⟨.adr, .mrmovq, 0, 0, none, some 1⟩ with
      cfg := { Config.default with stopPolicy := .anyNonAok } }
    halt.running = true ∧ (halt.W.icode = .halt ∧ halt.W.dstE = none ∧ halt.W.dstM = none) ∧
    (error.cfg.stopPolicy = .anyNonAok ∧ error.W.stat = .adr) ∧
    holds (step halt) (fun t => !t.running) = true ∧
    holds (step error) (fun t => !t.running) = true ∧
    holds (step State.reset) (fun t => t.running) = true := by decide

/-- The smallest and the largest memory, and one with a byte at its last address. -/
theorem witness_InvariantAfterReset :
    { Config.default with memSize := 1 }.wf ∧ { Config.default with memSize := 2 ^ 64 }.wf ∧
    Memory.wf [(0xFFF, 1)] ∧ Memory.within [(0xFFF, 1)] Config.default.memSize := by decide

theorem witness_EveryStepKeepsInvariant : State.reset.Inv ∧ ∃ t, step State.reset = .next t :=
  ⟨reset_inv, _, step_next_iff.2 ⟨rfl, rfl⟩⟩

theorem witness_ErroredInstructionNeverAccessesMemory :
    let s := withM ⟨.ins, .codeC, true, 0, 0, none, none⟩
    s.Inv ∧ s.running = true ∧ s.M.stat ≠ .aok := by
  refine ⟨⟨reset_inv.cfg, reset_inv.memWf, reset_inv.memWithin, reset_inv.D, reset_inv.E,
    ⟨?_, ?_, ?_, ?_, ?_, ?_⟩, reset_inv.W, reset_inv.final⟩, rfl, by decide⟩ <;>
  simp [withM, Stat.fitsBeforeMemory, Reference.notInstruction, RegId.allowed, DestinationsFit, CndFits]

theorem witness_ParametersFixedAndRegister15Unnamed :
    let s := State.resetWith { Config.default with regFIsNone := true } (Vector.replicate 16 7)
      ⟨true, false, false⟩ []
    s.Inv ∧ s.cfg.regFIsNone = true ∧ ∃ t, step s = .next t := by
  refine ⟨⟨by decide, by decide, by decide, ⟨?_, ?_, ?_, ?_, ?_⟩, ⟨?_, ?_, ?_, ?_, ?_, ?_⟩,
    ⟨?_, ?_, ?_, ?_, ?_, ?_⟩, ⟨?_, ?_, ?_, ?_, ?_⟩, rfl⟩, rfl, _, step_next_iff.2 ⟨rfl, rfl⟩⟩ <;>
  simp [DReg.bubble, EReg.bubble, MReg.bubble, WReg.bubble, Stat.fitsBeforeMemory,
    Reference.notInstruction, RegId.allowed, DestinationsFit, CndFits, Stat.fitsInW]

/-- Two states with different statuses and nothing else different. -/
theorem witness_StatusHasNoEffect :
    let s := withM (atM .rmmovq 8 5 none none)
    let s' := withM { atM .rmmovq 8 5 none none with stat := .adr }
    s.running = true ∧ s.cfg.stopPolicy = .haltOnly ∧ s ≠ s' ∧ forgetStatus s = forgetStatus s' := by
  decide

theorem witness_IfunReadOnlyForThreeIcodes :
    (∃ t, step (inD .jxx) = .next t) ∧ (inE .call 0).E.icode ∉ [Icode.rrmovq, .opq, .jxx] :=
  ⟨⟨_, step_next_iff.2 ⟨rfl, rfl⟩⟩, by decide⟩

/-! ### Witnesses: instructions through the pipeline -/

/-- All five ticks of an instruction answer and the run goes on until its Writeback tick: what the nested `Next` of
the instruction statements assume. -/
def completes (i : Instr) (s : State) : Bool :=
  holds (exec i s) fun s1 => s1.running && holds (step s1) fun s2 => s2.running &&
    holds (step s2) fun s3 => s3.running && holds (step s3) fun s4 => s4.running &&
      holds (step s4) fun _ => true

/-- After reset, with RSP and register 3 at `a`. -/
def withStack (a : Word) : State :=
  { State.reset with x := ((Vector.replicate 16 0).set 4 a).set 3 a }

theorem witness_InstructionCompletesInFiveTicks :
    State.reset.running = true ∧ State.reset.NoStopAhead := by
  unfold State.NoStopAhead
  decide

theorem witness_HaltStopsTheRun : State.reset.running = true ∧ completes (.halt 0) State.reset = true := by
  decide
theorem witness_NopHasNoEffect : completes (.nop 15) State.reset = true := by decide
theorem witness_NonInstructionDrainsWithoutEffect :
    12 ≤ (12 : Nibble).toNat ∧ State.reset.cfg.stopPolicy = .haltOnly ∧
    completes (.nonInstruction 12 0) State.reset = true ∧
    completes (.nonInstruction 15 0)
      { State.reset with cfg := { Config.default with stopPolicy := .anyNonAok } } = true := by decide
theorem witness_MovesWriteWhenConditionHolds :
    (moves 1 2).length = 16 ∧ completes (.cmove 1 2) State.reset = true := ⟨rfl, by decide⟩
theorem witness_IrmovqWritesConstant : completes (.irmovq 0 15 4 0x100) State.reset = true := by decide
/-- In range at the last word, and out of range one past it. -/
theorem witness_RmmovqStores :
    (withStack 0xFF8).mem.wf ∧ completes (.rmmovq 0 0 3 0) (withStack 0xFF8) = true ∧
    completes (.rmmovq 0 0 3 1) (withStack 0xFF8) = true := by decide
theorem witness_MrmovqLoads :
    completes (.mrmovq 0 1 3 0) (withStack 0xFF8) = true ∧
    completes (.mrmovq 0 1 3 1) (withStack 0xFF8) = true := by decide
theorem witness_OperationsWriteResultAndFlags :
    (operations 1 2).length = 16 ∧ completes (.subq 1 2) State.reset = true := ⟨rfl, by decide⟩
/-- Nothing older redirects the fetch after the jump; the condition holds (je) and fails (jne) on the flags of reset;
no RET is in W when the jump is in M. -/
theorem witness_JumpsRedirectFetch :
    (jumps 0x200).length = 16 ∧ completes (.je 0x200) State.reset = true ∧
    holds (exec (.je 0x200) State.reset) (fun s1 =>
      !(s1.M.icode == .jxx && !s1.M.Cnd) && s1.W.icode != .ret &&
      holds (step s1) fun s2 => s2.cc.ZF && holds (step s2) fun s3 => s3.W.icode != .ret) = true :=
  ⟨rfl, by decide, by decide⟩
theorem witness_CallPushesReturnAddress :
    State.reset.mem.wf ∧ completes (.call 0 0x40) (withStack 0x1000) = true ∧
    completes (.call 0 0x40) (withStack 0x1001) = true := by decide
/-- No mispredicted jump is in M when the RET is in W; and one is, fetched right after the RET. -/
theorem witness_RetFetchesPoppedAddress :
    completes (.ret 0) (withStack 0xFF8) = true ∧
    holds (feed [.ret 0, .nop 0, .nop 0, .nop 0] (withStack 0xFF9)) (fun s4 => s4.M.icode == .nop) = true ∧
    holds (step (withBytes 0 [0x90, 0x74, 0x40])) (fun s1 => holds (step s1) fun s2 =>
      holds (step s2) fun s3 => holds (step s3) fun s4 => s4.M.icode == .jxx && !s4.M.Cnd) = true := by
  decide
theorem witness_PushqStoresAndDecrements :
    State.reset.mem.wf ∧ completes (.pushq 0 4 15) (withStack 0x1000) = true ∧
    completes (.pushq 0 4 15) State.reset = true := by decide
/-- A register that is not RSP, and RSP. -/
theorem witness_PopqLoadsAndIncrements :
    completes (.popq 0 2 15) (withStack 0xFF8) = true ∧ completes (.popq 0 4 15) (withStack 0xFF9) = true ∧
    regOf Config.default 2 = some 2 ∧ regOf Config.default 4 = some 4 := by decide

/-! ### Witnesses: the pipeline against the sequential reading -/

theorem reset_idle : State.reset.Idle := by
  unfold State.Idle
  decide

theorem witness_LoneInstructionHasItsEffect :
    (Instr.popq 0 4 15).wf = true ∧ State.reset.running = true ∧ State.reset.Idle :=
  ⟨rfl, rfl, reset_idle⟩

/-- A store (its address and a byte outside it), an instruction that stores nothing, a register that is no
destination. -/
theorem witness_InstructionFrame :
    (Instr.rmmovq 0 1 2 8).wf = true ∧ State.reset.running = true ∧ State.reset.NoStopAhead ∧
    State.reset.mem.wf ∧ some (4 : Fin 16) ∉ destinations Config.default (.rmmovq 0 1 2 8) ∧
    isOperation (.rmmovq 0 1 2 8) = false ∧
    holds (exec (.rmmovq 0 1 2 8) State.reset)
      (fun s1 => storeAddress s1 (.rmmovq 0 1 2 8) == some 8) = true ∧
    storeAddress State.reset (.popq 0 4 15) = none :=
  ⟨rfl, rfl, witness_InstructionCompletesInFiveTicks.2, by decide, by decide, rfl, by decide, rfl⟩

/-- RET; a jump whose condition fails on the flags of reset; one whose condition holds; and no jump. -/
theorem witness_LoneInstructionResolvesNextAddress :
    (Instr.ret 0).wf = true ∧ State.reset.running = true ∧ State.reset.Idle ∧
    holds (feed [.ret 0] State.reset) (fun s1 => s1.D.icode == .ret) = true ∧
    holds (feed [.jne 0x200, .nop 0, .nop 0] State.reset) (fun s3 =>
      s3.M.icode == .jxx && !s3.M.Cnd) = true ∧
    holds (feed [.je 0x200, .nop 0, .nop 0] State.reset) (fun s3 =>
      s3.M.icode == .jxx && s3.M.Cnd) = true ∧
    holds (feed [.nop 0] State.reset) (fun s1 => s1.D.icode == .nop) = true :=
  ⟨rfl, rfl, reset_idle, by decide, by decide, by decide, by decide⟩

/-- A load of register 1 in D, producers behind it, and an instruction that reads registers 2 and 3. -/
theorem witness_PipelineIsSequentialWithoutLoadUse :
    (Instr.addq 2 3).wf = true ∧ (inD .mrmovq).running = true ∧ (inD .mrmovq).NoStopAhead ∧
    ¬LoadUse (inD .mrmovq) (.addq 2 3) ∧ LoadUse (inD .mrmovq) (.addq 1 3) := by
  unfold State.NoStopAhead LoadUse
  decide

end Sys2Proof.Tests
end

