-- ==== Sys2Proof/Proofs/Encoding.lean ====
section
/-! PROOFS. Which stages read ifun (30_encoding.md R108). Fetch's packet depends on neither D nor E; Decode only
carries ifun into E; Execute reads it for RRMOVQ, OPQ and JXX alone. -/

namespace Sys2Proof.Proofs

open Sys2Proof Sys2Proof.Machine

/-! ### Fetch reads neither D nor E -/

theorem nextPacket_with_D (s : State) (D : DReg) :
    State.nextPacket { s with D := D } = s.nextPacket := rfl

theorem nextPacket_with_E (s : State) (E : EReg) :
    State.nextPacket { s with E := E } = s.nextPacket := rfl

/-! ### Decode carries ifun -/

/-- What is staged into E with another ifun in D: the same, with that ifun. -/
theorem nextE_with_D_ifun (D : DReg) (E : EReg) (M : MReg) (W : WReg) (cc : CC) (x : RegFile) (f : Nibble) :
    nextE { D with ifun := f } E M W cc x = { nextE D E M W cc x with ifun := f } := rfl

/-- A tick with another ifun in D: the same, with that ifun in E. -/
theorem tick_with_D_ifun (s : State) (p : Fetched) (f : Nibble) :
    State.tick { s with D := { s.D with ifun := f } } p =
      { s.tick p with E := { (s.tick p).E with ifun := f } } := by
  simp only [State.tick, nextE_with_D_ifun]

/-! ### Execute reads ifun for RRMOVQ, OPQ and JXX -/

/-- e_Cnd of an icode that tests no condition: false for NOP and HALT, true for the others (R209). -/
theorem eCndOf_of_unconditional {E : EReg} (cc : CC) (hr : E.icode ≠ .rrmovq) (hj : E.icode ≠ .jxx) :
    eCndOf E cc = (E.icode != .nop && E.icode != .halt) := by
  unfold eCndOf
  split <;> simp_all

section
variable {E : EReg} (f : Nibble) (cc : CC)

theorem eValE_with_ifun (h : E.icode ≠ .opq) : eValE { E with ifun := f } = eValE E := by
  rw [eValE_of_ne_opq h, eValE_of_ne_opq (E := { E with ifun := f }) h]
  rfl

theorem nextCC_with_ifun (h : E.icode ≠ .opq) : nextCC { E with ifun := f } cc = nextCC E cc := by
  rw [nextCC_of_ne_opq cc h, nextCC_of_ne_opq (E := { E with ifun := f }) cc h]

theorem eDstE_with_ifun (h : E.icode ≠ .rrmovq) : eDstE { E with ifun := f } cc = eDstE E cc := by
  rw [eDstE_of_ne_rrmovq cc h, eDstE_of_ne_rrmovq (E := { E with ifun := f }) cc h]

theorem eCndOf_with_ifun (hr : E.icode ≠ .rrmovq) (hj : E.icode ≠ .jxx) :
    eCndOf { E with ifun := f } cc = eCndOf E cc := by
  rw [eCndOf_of_unconditional cc hr hj, eCndOf_of_unconditional (E := { E with ifun := f }) cc hr hj]

theorem nextM_with_ifun (hr : E.icode ≠ .rrmovq) (ho : E.icode ≠ .opq) (hj : E.icode ≠ .jxx) :
    nextM { E with ifun := f } cc = nextM E cc := by
  simp only [nextM, eCndOf_with_ifun f cc hr hj, eValE_with_ifun f ho, eDstE_with_ifun f cc hr]

/-- Decode sees of Execute what it forwards: e_dstE and e_valE. -/
theorem nextE_with_E_ifun (D : DReg) (M : MReg) (W : WReg) (x : RegFile)
    (hr : E.icode ≠ .rrmovq) (ho : E.icode ≠ .opq) :
    nextE D { E with ifun := f } M W cc x = nextE D E M W cc x := by
  simp only [nextE, dValA, dValB, fwd, eValE_with_ifun f ho, eDstE_with_ifun f cc hr]

end

/-- A tick reads the ifun in E for RRMOVQ, OPQ and JXX only. -/
theorem tick_with_E_ifun (s : State) (p : Fetched) (f : Nibble) (hr : s.E.icode ≠ .rrmovq)
    (ho : s.E.icode ≠ .opq) (hj : s.E.icode ≠ .jxx) :
    State.tick { s with E := { s.E with ifun := f } } p = s.tick p := by
  simp only [State.tick, nextCC_with_ifun f s.cc ho, nextM_with_ifun f s.cc hr ho hj,
    nextE_with_E_ifun f s.cc s.D s.M s.W s.x hr ho]

/-- Settles O40: the packet fetched depends on neither D nor E, and of the tick of a packet the lemmas above say
where it reads ifun. -/
theorem ifunReadOnlyForThreeIcodes : Obligations.IfunReadOnlyForThreeIcodes := by
  intro s f
  constructor
  · intro t ht
    obtain ⟨hrun, rfl⟩ := step_next_iff.1 ht
    exact step_next_iff.2 ⟨hrun, by
      rw [nextPacket_with_D s { s.D with ifun := f }, tick_with_D_ifun s s.nextPacket f]⟩
  · intro hE
    simp only [List.mem_cons, List.not_mem_nil, or_false, not_or] at hE
    obtain ⟨hr, ho, hj⟩ := hE
    rw [step_eq_clock, step_eq_clock, nextPacket_with_E s { s.E with ifun := f }]
    simp only [clock, tick_with_E_ifun s _ f hr ho hj]

end Sys2Proof.Proofs
end

