-- ==== Sys2Proof/Proofs/Fetch.lean ====
section
/-! PROOFS. The fallthrough PC Fetch stages (40_fetch.md R144): once per instruction format, then for the packet of
every instruction, whose format is the one its icode asks for. -/

namespace Sys2Proof.Proofs

open Sys2Proof Sys2Proof.Machine

/-- f_valP of an instruction of this icode fetched at `pc` (R144). -/
def fallthroughAt (pc : Word) (icode : Icode) : Word :=
  pc + 1 + (if Reference.needRegIds icode = true then 1 else 0) +
    (if Reference.needValC icode = true then 8 else 0)

/-! ### One lemma per format -/

section
variable (s : State) {icode : Icode}

theorem fetchF1_valP (stat : Stat) (ifun : Nibble) (hr : Reference.needRegIds icode = false)
    (hc : Reference.needValC icode = false) :
    (s.fetchF1 stat icode ifun).valP = fallthroughAt s.fetchPC icode := by
  simp [State.fetchF1, fallthroughAt, hr, hc]

theorem fetchF2_valP (ifun rA rB : Nibble) (hr : Reference.needRegIds icode = true)
    (hc : Reference.needValC icode = false) :
    (s.fetchF2 icode ifun rA rB).valP = fallthroughAt s.fetchPC icode := by
  simp [State.fetchF2, fallthroughAt, hr, hc, BitVec.add_assoc]

theorem fetchF9_valP (ifun : Nibble) (c : Word) (hr : Reference.needRegIds icode = false)
    (hc : Reference.needValC icode = true) :
    (s.fetchF9 icode ifun c).valP = fallthroughAt s.fetchPC icode := by
  simp [State.fetchF9, fallthroughAt, hr, hc, BitVec.add_assoc]

theorem fetchF10_valP (ifun rA rB : Nibble) (c : Word) (hr : Reference.needRegIds icode = true)
    (hc : Reference.needValC icode = true) :
    (s.fetchF10 icode ifun rA rB c).valP = fallthroughAt s.fetchPC icode := by
  simp [State.fetchF10, fallthroughAt, hr, hc, BitVec.add_assoc]

end

/-! ### Every instruction -/

/-- The codes C to F ask for neither a register byte nor a constant (R142, R143). -/
theorem needs_nothing_of_nonInstruction {c : Nibble} (h : 12 ≤ c.toNat) :
    Reference.needRegIds (.ofNibble c) = false ∧ Reference.needValC (.ofNibble c) = false := by
  revert c; decide

theorem packetOf_valP {i : Instr} (hi : i.wf = true) (s : State) :
    (packetOf i s).valP = fallthroughAt s.fetchPC (packetOf i s).icode := by
  cases i with
  | halt | nop | ret => exact fetchF1_valP s _ _ rfl rfl
  | nonInstruction c f =>
    have hc : 12 ≤ c.toNat := by simpa [Instr.wf] using hi
    obtain ⟨hreg, hconst⟩ := needs_nothing_of_nonInstruction hc
    exact fetchF1_valP s _ _ hreg hconst
  | rrmovq | cmovle | cmovl | cmove | cmovne | cmovge | cmovg | reservedCmov7 | reservedCmov8F
  | addq | subq | andq | xorq | reservedOp47 | reservedOp8F | pushq | popq =>
    exact fetchF2_valP s _ _ _ rfl rfl
  | jmp | jle | jl | je | jne | jge | jg | reservedJump7 | reservedJump8F | call =>
    exact fetchF9_valP s _ _ rfl rfl
  | irmovq | rmmovq | mrmovq => exact fetchF10_valP s _ _ _ _ rfl rfl

/-- Settles O10: the D staged by a tick is the instruction's packet, whose valP is the formula's. -/
theorem fallthroughIsAddressPlusLength : Obligations.FallthroughIsAddressPlusLength := by
  intro i s hi hrun
  exact ⟨_, exec_next_iff.2 ⟨hrun, rfl⟩, packetOf_valP hi s⟩

end Sys2Proof.Proofs
end

