-- ==== Sys2Proof/Proofs/Decode.lean ====
section
/-! PROOFS. Decode: the table of d_srcA (41_decode.md R170), and the value every resolved source has, which is the
state's `operand`, the first match of the forwarding network (R180). -/

namespace Sys2Proof.Proofs

open Sys2Proof Sys2Proof.Machine Sys2Proof.Claims

/-! ### The table of d_srcA -/

/-- The icodes whose first operand is the register rA names. -/
theorem srcAOf_eq_rA (rA : RegId) :
    ∀ icode ∈ [Icode.rrmovq, .rmmovq, .opq, .pushq], srcAOf icode rA = rA := by
  simp [srcAOf]

/-- The icodes that read the stack through their first operand. -/
theorem srcAOf_eq_RSP (rA : RegId) : ∀ icode ∈ [Icode.popq, .ret], srcAOf icode rA = RSP := by
  simp [srcAOf]

/-- The icodes with no first operand. -/
theorem srcAOf_eq_none (rA : RegId) :
    ∀ icode ∈ [Icode.halt, .nop, .irmovq, .mrmovq, .jxx, .call, .codeC, .codeD, .codeE, .codeF],
      srcAOf icode rA = none := by
  simp [srcAOf]

/-- Settles O16: the E staged by a tick holds d_srcA, whose three groups of icodes are the lemmas above. -/
theorem sourceATable : Obligations.SourceATable := fun s hrun =>
  ⟨_, step_next_iff.2 ⟨hrun, rfl⟩, srcAOf_eq_rA s.D.rA s.D.icode, srcAOf_eq_RSP s.D.rA s.D.icode,
    srcAOf_eq_none s.D.rA s.D.icode⟩

/-! ### The operand values -/

@[simp] theorem operand_none (s : State) : s.operand none = 0 := rfl

/-- The operand a register names: Execute's result of the tick at hand, then M's, then W's, then the register
file's (R180). -/
theorem operand_some (s : State) (n : Fin 16) :
    s.operand (some n) =
      if eDstE s.E s.cc = some n then eValE s.E
      else if s.M.dstE = some n then s.M.valE
      else if s.W.dstE = some n then s.W.valE
      else s.x[n] :=
  forward_some n _ _ s.M s.W s.x

/-- d_valA of an icode that does not carry its fallthrough address is the operand d_srcA names (R181). -/
theorem dValA_eq_operand {s : State} (hcall : s.D.icode ≠ .call) (hjxx : s.D.icode ≠ .jxx) :
    dValA s.D s.E s.M s.W s.cc s.x = s.operand (srcAOf s.D.icode s.D.rA) := by
  simp [dValA, State.operand, hcall, hjxx]

/-- What Decode resolves a source to, in srcA or in srcB, is its operand value at the start of the tick. -/
theorem operand_of_resolved {s : State} {f : Fetched} {r : RegId} {v : Word}
    (h : Resolved s (s.tick f) r v) : v = s.operand r := by
  rcases h with ⟨hr, hv⟩ | ⟨hcall, hjxx, hr, hv⟩
  · rw [hr, hv]
    rfl
  · rw [hr, hv]
    exact dValA_eq_operand hcall hjxx

/-- Settles O18: a resolved source has its operand value, and the tick stages into M the e_dstE and e_valE that the
operand's first case compares with and gives. -/
theorem forwardingPriority : Obligations.ForwardingPriority := by
  intro s hrun
  refine ⟨_, step_next_iff.2 ⟨hrun, rfl⟩, fun r v hv => ?_⟩
  obtain rfl := operand_of_resolved hv
  constructor
  · rintro rfl
    exact operand_none s
  · rintro n rfl
    rw [operand_some, State.tick_M, nextM_dstE, nextM_valE]
    refine ⟨fun hE => ?fromExecute, fun hE hM => ?fromM, fun hE hM hW => ?fromW, fun hE hM hW => ?fromFile⟩
    case fromExecute => rw [if_pos hE]
    case fromM => rw [if_neg hE, if_pos hM]
    case fromW => rw [if_neg hE, if_neg hM, if_pos hW]
    case fromFile => rw [if_neg hE, if_neg hM, if_neg hW]

end Sys2Proof.Proofs
end

