-- ==== Sys2Proof/Proofs/Execute.lean ====
section
/-! PROOFS. Execute: when an instruction loses its destination (42_execute.md R211), and what Decode's forwarding
then compares with in the same tick. -/

namespace Sys2Proof.Proofs

open Sys2Proof Sys2Proof.Machine Sys2Proof.Claims

/-! ### Destination nullification -/

/-- A conditional move whose condition is false loses its destination. -/
theorem eDstE_of_false_move {E : EReg} {cc : CC} (hmove : E.icode = .rrmovq) (hcnd : eCndOf E cc = false) :
    eDstE E cc = none := by
  simp [eDstE, hmove, hcnd]

/-- An instruction whose condition is true keeps its destination. -/
theorem eDstE_of_eCndOf {E : EReg} {cc : CC} (hcnd : eCndOf E cc = true) : eDstE E cc = E.dstE := by
  simp [eDstE, hcnd]

/-- Settles O25: the tick stages e_dstE into M, which the lemmas above give for a move whose condition is false or
true and `eDstE_of_ne_rrmovq` for every other instruction; that forwarding compares with it is the first and the last
case of the forwarding priority. -/
theorem falseMoveLosesDestination : Obligations.FalseMoveLosesDestination := by
  intro s hrun
  obtain ⟨t, ht, hpriority⟩ := forwardingPriority s hrun
  refine ⟨t, ht, ?falseMove, ?trueMove, ?noMove, fun r v n hv hr => ?forwarding⟩
  case forwarding =>
    obtain ⟨fromExecute, -, -, fromFile⟩ := (hpriority r v hv).2 n hr
    exact ⟨fromExecute, fromFile⟩
  all_goals obtain ⟨-, rfl⟩ := step_next_iff.1 ht
  case falseMove => exact eDstE_of_false_move
  case trueMove => exact fun _ => eDstE_of_eCndOf
  case noMove => exact eDstE_of_ne_rrmovq s.cc

end Sys2Proof.Proofs
end

