-- ==== Sys2Proof/Proofs/MemoryWriteback.lean ====
section
/-! PROOFS. The access of each group of icodes in the Memory stage (43_memory_writeback.md R231 to R233), and the
successor of a tick (R255). -/

namespace Sys2Proof.Proofs

open Sys2Proof Sys2Proof.Machine

/-! ### The access of an icode -/

/-- The icodes that access no memory (R233). -/
theorem accessOf_eq_none {M : MReg} :
    M.icode ∈ [Icode.halt, .nop, .rrmovq, .irmovq, .opq, .jxx, .codeC, .codeD, .codeE, .codeF] →
      accessOf M = .none := by
  unfold accessOf
  cases M.icode <;> simp

/-- The icodes that read (R231). -/
theorem accessOf_eq_read {M : MReg} :
    M.icode ∈ [Icode.mrmovq, .popq, .ret] → ∃ a, accessOf M = .read a := by
  unfold accessOf
  cases M.icode <;> simp

/-- The icodes that write (R232). -/
theorem accessOf_eq_write {M : MReg} :
    M.icode ∈ [Icode.rmmovq, .pushq, .call] → accessOf M = .write M.valE M.valA := by
  unfold accessOf
  cases M.icode <;> simp

/-! ### What an access leaves alone -/

section
variable (cfg : Config) (mem : Memory) (a v : Word)

@[simp] theorem nextMem_none : nextMem cfg mem .none = mem := rfl
@[simp] theorem nextMem_read : nextMem cfg mem (.read a) = mem := rfl
@[simp] theorem mValM_none : mValM cfg mem .none = 0 := rfl
@[simp] theorem mValM_write : mValM cfg mem (.write a v) = 0 := rfl

end

/-- Settles O28: the icode in M alone fixes the access; only a write changes the memory, and only a read gives an
m_valM other than 0. -/
theorem otherInstructionsLeaveMemory : Obligations.OtherInstructionsLeaveMemory := by
  intro s hrun
  refine ⟨_, step_next_iff.2 ⟨hrun, rfl⟩, fun h => ?noAccess, fun h => ?reader, fun h => ?writer⟩
  case noAccess => simp [accessOf_eq_none h]
  case reader =>
    obtain ⟨a, hread⟩ := accessOf_eq_read h
    simp [hread]
  case writer => simp [accessOf_eq_write h]

/-! ### The successor of a tick -/

/-- Settles O15: a step answers a next state exactly while running, and that state is the tick's. -/
theorem oneSuccessorExactlyWhileRunning : Obligations.OneSuccessorExactlyWhileRunning := by
  intro s
  constructor
  · intro hrun
    exact ⟨_, step_next_iff.2 ⟨hrun, rfl⟩, fun u hu => (step_next_iff.1 hu).2⟩
  · intro hstopped t ht
    obtain ⟨hrun, -⟩ := step_next_iff.1 ht
    simp [hstopped] at hrun

end Sys2Proof.Proofs
end

/-! PROOFS. The integer operations (45_alu.md R340 to R345): the rows of the table of operations are the ALU and its
overflow, and an OPQ carries its result and its flags through the stages. Then an instruction alone in the pipeline
(44_misc_and_moves.md R300): what idle pipeline registers leave alone, an instruction's way between them, and, family
by family, that this way is the instruction's Effect line. -/

namespace Sys2Proof.Proofs

open Sys2Proof Sys2Proof.Machine Sys2Proof.Claims

/-! ### The rows of the table -/

section
variable (rA rB : Nibble)

/-- Every row is fetched as an OPQ of its ifun (R340). -/
theorem operations_packet (s : State) :
    ∀ p ∈ operations rA rB, packetOf p.1 s = s.fetchF2 .opq p.2.1 rA rB := by
  simp [operations, packetOf]

/-- A row's result is the ALU's for its ifun (R341 to R345). -/
theorem operations_result (u v : Word) :
    ∀ p ∈ operations rA rB, alu (.ofIfun p.2.1) u v = p.2.2.1 u v := by
  simp [operations, AluFun.ofIfun, alu, BitVec.and_comm, BitVec.xor_comm]

/-- A row's overflow is OF' of its ifun (R341 to R345, D16). -/
theorem operations_overflow (u v : Word) :
    ∀ p ∈ operations rA rB, overflow (.ofIfun p.2.1) u v (p.2.2.1 u v) = p.2.2.2 u v := by
  simp [operations, AluFun.ofIfun, overflow]

end

/-! ### An OPQ in each stage -/

section
variable {s : State} (g : Fetched) {f : Nibble} {a b : RegId} {c p u v r : Word}

/-- Decode resolves both operands and names rB the destination (41_decode.md R170 to R173, R181, R182). -/
theorem tick_E_of_opq (hD : s.D = ⟨.aok, .opq, f, a, b, c, p⟩) :
    (s.tick g).E = ⟨.aok, .opq, f, c, s.operand a, s.operand b, b, none, a, b⟩ := by
  rw [State.tick_E, hD]
  rfl

/-- Execute stages the operator's result (42_execute.md R200 to R203, R212). -/
theorem tick_M_of_opq (hE : s.E = ⟨.aok, .opq, f, c, u, v, b, none, a, b⟩) :
    (s.tick g).M = ⟨.aok, .opq, true, alu (.ofIfun f) u v, u, b, none⟩ := by
  rw [State.tick_M, hE]
  rfl

/-- Execute sets the condition codes from the result (42_execute.md R205). -/
theorem tick_cc_of_opq (hE : s.E = ⟨.aok, .opq, f, c, u, v, b, none, a, b⟩) :
    (s.tick g).cc = flagsOf (.ofIfun f) u v (alu (.ofIfun f) u v) := by
  rw [State.tick_cc, hE]
  rfl

/-- Memory makes no access and carries the result on (43_memory_writeback.md R233, R236). -/
theorem tick_W_of_opq (hM : s.M = ⟨.aok, .opq, true, r, u, b, none⟩) :
    (s.tick g).mem = s.mem ∧ (s.tick g).W = ⟨.aok, .opq, r, 0, b, none⟩ := by
  rw [State.tick_mem, State.tick_W, hM]
  exact ⟨rfl, rfl⟩

/-- Writeback writes the result to rB, and the run goes on (43_memory_writeback.md R246, R249). -/
theorem tick_x_of_opq (hW : s.W = ⟨.aok, .opq, r, 0, b, none⟩) :
    (s.tick g).running = true ∧ (s.tick g).x = writeReg s.x b r := by
  rw [State.tick_running, State.tick_x, hW]
  exact ⟨by rw [stopsRun_of_aok rfl Icode.noConfusion]; rfl, rfl⟩

end

/-- Settles O50: the OPQ of a row's ifun goes through the five stages, and the ALU's result and overflow for that ifun
are the row's. -/
theorem operationsWriteResultAndFlags : Obligations.OperationsWriteResultAndFlags := by
  intro s rA rB p hp hrun
  let s1 := s.tick (s.fetchF2 .opq p.2.1 rA rB)
  have hD : s1.D = ⟨.aok, .opq, p.2.1, regOf s.cfg rA, regOf s.cfg rB, 0, s.fetchPC + 2⟩ := rfl
  let s2 := s1.tick s1.nextPacket
  have hE := tick_E_of_opq s1.nextPacket hD
  have hM := tick_M_of_opq s2.nextPacket hE
  have hcc := tick_cc_of_opq s2.nextPacket hE
  rw [operations_result rA rB _ _ p hp] at hM hcc
  obtain ⟨hmem, hW⟩ := tick_W_of_opq _ hM
  refine ⟨s1, exec_next_iff.2 ⟨hrun, by rw [operations_packet rA rB s p hp]⟩, hD, rfl,
    next_of_tick ⟨hE, next_of_tick ⟨?zero, ?sign, ?overflow, hM,
      next_of_tick ⟨hmem, by rw [hW], next_of_tick (tick_x_of_opq _ hW)⟩⟩⟩⟩
  case zero => rw [hcc]; exact beq_iff_eq
  case sign => rw [hcc]; rfl
  case overflow => rw [hcc]; exact operations_overflow rA rB _ _ p hp

/-! ### Idle pipeline registers -/

/-- D holds a nop: the part of `State.Idle` about D. -/
def IdleD (D : DReg) : Prop := D.stat = .aok ∧ D.icode = .nop

/-- E holds a nop without destinations: the part of `State.Idle` about E. -/
def IdleE (E : EReg) : Prop := E.stat = .aok ∧ E.icode = .nop ∧ E.dstE = none ∧ E.dstM = none

/-- M holds a nop without destinations: the part of `State.Idle` about M. -/
def IdleM (M : MReg) : Prop := M.stat = .aok ∧ M.icode = .nop ∧ M.dstE = none ∧ M.dstM = none

/-- W holds a nop without destinations: the part of `State.Idle` about W. -/
def IdleW (W : WReg) : Prop := W.stat = .aok ∧ W.icode = .nop ∧ W.dstE = none ∧ W.dstM = none

theorem idle_iff {s : State} : s.Idle ↔ IdleD s.D ∧ IdleE s.E ∧ IdleM s.M ∧ IdleW s.W := Iff.rfl

section
variable {D : DReg} {E : EReg} {M : MReg} {W : WReg} {cc : CC} {x : RegFile} {cfg : Config} {mem : Memory}

@[simp] theorem idleD_nop (f : Nibble) (s : State) : IdleD (packetOf (.nop f) s).toD := ⟨rfl, rfl⟩

@[simp] theorem idleE_nextE : IdleE (nextE D E M W cc x) ↔ IdleD D := by
  simp +contextual [IdleE, IdleD, dstEOf, dstMOf]

@[simp] theorem idleM_nextM : IdleM (nextM E cc) ↔ IdleE E := by
  simp +contextual [IdleM, IdleE, eDstE]

@[simp] theorem idleW_nextW : IdleW (nextW cfg M mem) ↔ IdleM M := by
  simp +contextual [IdleW, IdleM, accessOf, accessOk, Stat.escalate]

theorem nextCC_of_idle (h : IdleE E) : nextCC E cc = cc := by
  obtain ⟨-, hnop, -⟩ := h
  exact nextCC_of_ne_opq cc (by simp [hnop])

theorem nextMem_of_idle (h : IdleM M) : nextMem cfg mem (accessOf M) = mem := by
  obtain ⟨-, hnop, -⟩ := h
  simp [accessOf_eq_none, hnop]

theorem nextX_of_idle (h : IdleW W) : nextX W x = x := by
  obtain ⟨-, hnop, hE, hM⟩ := h
  simp [nextX_of_ne_halt, hnop, hE, hM]

theorem stopsRun_of_idle (policy : StopPolicy) (h : IdleW W) : stopsRun policy W = false := by
  obtain ⟨haok, hnop, -⟩ := h
  exact stopsRun_of_aok haok (by simp [hnop])

/-- With nothing in flight every source reads the register file. -/
theorem fwd_of_idle (hE : IdleE E) (hM : IdleM M) (hW : IdleW W) (r : RegId) :
    fwd E M W cc x r = readReg x r := by
  obtain ⟨-, hnop, hdst, -⟩ := hE
  obtain ⟨-, -, hdstM, -⟩ := hM
  obtain ⟨-, -, hdstW, -⟩ := hW
  rw [fwd, eDstE_of_ne_rrmovq cc (by simp [hnop]), hdst, forward_of_none r _ M W x hdstM hdstW]

end

/-! ### An instruction alone in the pipeline -/

/-- What Decode stages for the instruction in D when every source reads the register file. -/
def loneE (D : DReg) (x : RegFile) : EReg :=
  ⟨D.stat, D.icode, D.ifun, D.valC,
    if D.icode = .call || D.icode = .jxx then D.valP else readReg x (srcAOf D.icode D.rA),
    readReg x (srcBOf D.icode D.rB), dstEOf D.icode D.rB, dstMOf D.icode D.rA,
    srcAOf D.icode D.rA, srcBOf D.icode D.rB⟩

/-- What Execute then stages. -/
def loneM (D : DReg) (a : Arch) : MReg := nextM (loneE D a.x) a.cc

/-- What Memory then stages. -/
def loneW (cfg : Config) (D : DReg) (a : Arch) : WReg := nextW cfg (loneM D a) a.mem

/-- The registers, flags and memory once the instruction has been written back. -/
def loneArch (cfg : Config) (D : DReg) (a : Arch) : Arch :=
  ⟨nextX (loneW cfg D a) a.x, nextCC (loneE D a.x) a.cc, nextMem cfg a.mem (accessOf (loneM D a))⟩

theorem nextE_of_idle {E : EReg} {M : MReg} {W : WReg} (hE : IdleE E) (hM : IdleM M) (hW : IdleW W)
    (D : DReg) (cc : CC) (x : RegFile) : nextE D E M W cc x = loneE D x := by
  simp only [nextE, dValA, dValB, fwd_of_idle hE hM hW]
  rfl

@[simp] theorem idleE_loneE {D : DReg} {x : RegFile} : IdleE (loneE D x) ↔ IdleD D := by
  simp +contextual [IdleE, IdleD, loneE, dstEOf, dstMOf]

/-- In `t`, four ticks after `s` fetched it, the instruction of `D` is alone in W: its flags are set, its access is
made, and its registers are still to be written. -/
structure AloneInW (D : DReg) (s t : State) : Prop where
  running : t.running = true
  cfg : t.cfg = s.cfg
  idleD : IdleD t.D
  idleE : IdleE t.E
  idleM : IdleM t.M
  W : t.W = loneW s.cfg D s.arch
  x : t.x = s.x
  cc : t.cc = (loneArch s.cfg D s.arch).cc
  mem : t.mem = (loneArch s.cfg D s.arch).mem

/-- Fetched into an idle pipeline and followed by three nops, an instruction is alone in W: in each of the ticks all
registers but its own are idle, so that Decode reads the register file and no other stage has an effect. -/
theorem feed_lone {s : State} (i : Instr) (hrun : s.running = true) (hidle : s.Idle) :
    ∃ t, feed [i, .nop 0, .nop 0, .nop 0] s = .next t ∧ AloneInW (packetOf i s).toD s t := by
  obtain ⟨hD, hE, hM, hW⟩ := idle_iff.1 hidle
  rw [feed_cons_of_running hrun, feed_cons_of_running ?run1, feed_cons_of_running ?run2,
    feed_cons_of_running ?run3]
  case run1 => simp [stopsRun_of_idle, hW]
  case run2 => simp [stopsRun_of_idle, hM]
  case run3 => simp [stopsRun_of_idle, hE]
  refine ⟨_, rfl, ?running, ?cfg, ?idleD, ?idleE, ?idleM, ?W, ?x, ?cc, ?mem⟩
  case running => simp [stopsRun_of_idle, hD]
  case cfg => simp
  case idleD | idleE | idleM => simp
  case W | x | cc | mem =>
    simp [loneM, loneW, loneArch, hD, hE, hM, hW, nextX_of_idle, nextMem_of_idle, nextCC_of_idle, nextE_of_idle]

/-! ### Its way is its Effect line -/

/-- The way of the instruction in D gives the registers, flags, memory and status of an effect. -/
def HasEffect (cfg : Config) (D : DReg) (a : Arch) (e : Effect) : Prop :=
  loneArch cfg D a = e.arch ∧ (loneW cfg D a).stat = e.stat

section
variable (s : State) (a : Arch) (f rA rB : Nibble) (c pc : Word)

/-- halt, nop and the codes C to F (R301 to R303). -/
theorem hasEffect_idle (stat : Stat) :
    ∀ icode ∈ [Icode.halt, .nop, .codeC, .codeD, .codeE, .codeF],
      HasEffect s.cfg (s.fetchF1 stat icode f).toD a (idleEffect stat pc a) := by
  simp only [List.forall_mem_cons, List.not_mem_nil, false_implies, implies_true, and_true]
  exact ⟨⟨rfl, rfl⟩, ⟨rfl, rfl⟩, ⟨rfl, rfl⟩, ⟨rfl, rfl⟩, ⟨rfl, rfl⟩, ⟨rfl, rfl⟩⟩

/-- The register moves: a false condition takes the destination away (R304 to R310). -/
theorem hasEffect_move :
    HasEffect s.cfg (s.fetchF2 .rrmovq f rA rB).toD a (moveEffect s.cfg f rA rB pc a) := by
  have harch : loneArch s.cfg (s.fetchF2 .rrmovq f rA rB).toD a =
      ⟨writeReg a.x (if !condition f a.cc then none else regOf s.cfg rB)
        (readReg a.x (regOf s.cfg rA) + 0), a.cc, a.mem⟩ := rfl
  refine ⟨?_, rfl⟩
  rw [harch, add_zero, moveEffect]
  cases condition f a.cc <;> rfl

/-- The reserved moves, whose condition is false (R311). -/
theorem hasEffect_reservedMove (hf : 7 ≤ f.toNat) :
    HasEffect s.cfg (s.fetchF2 .rrmovq f rA rB).toD a ⟨a, .aok, pc + 2⟩ := by
  have h := hasEffect_move s a f rA rB pc
  rwa [moveEffect, condition_reserved hf] at h

/-- The operations (R340 to R344). -/
theorem hasEffect_operation :
    HasEffect s.cfg (s.fetchF2 .opq f rA rB).toD a (opEffect s.cfg (.ofIfun f) rA rB pc a) :=
  ⟨rfl, rfl⟩

/-- The reserved operations (R345). -/
theorem hasEffect_reservedOperation (hf : 4 ≤ f.toNat) :
    HasEffect s.cfg (s.fetchF2 .opq f rA rB).toD a (opEffect s.cfg .unknown rA rB pc a) := by
  rw [← aluFun_reserved hf]
  exact hasEffect_operation s a f rA rB pc

/-- The jumps, wherever they go (R370 to R378). -/
theorem hasEffect_jump : HasEffect s.cfg (s.fetchF9 .jxx f c).toD a ⟨a, .aok, pc⟩ := ⟨rfl, rfl⟩

/-- `irmovq` (R312): the ALU adds 0 to the constant. -/
theorem hasEffect_irmovq :
    HasEffect s.cfg (s.fetchF10 .irmovq f rA rB c).toD a (effect s.cfg pc (.irmovq f rA rB c) a) := by
  have harch : loneArch s.cfg (s.fetchF10 .irmovq f rA rB c).toD a =
      ⟨writeReg a.x (regOf s.cfg rB) (c + 0), a.cc, a.mem⟩ := rfl
  exact ⟨by rw [harch, add_zero]; rfl, rfl⟩

/-- `rmmovq` (R313): the ALU adds the base to the displacement. -/
theorem hasEffect_rmmovq :
    HasEffect s.cfg (s.fetchF10 .rmmovq f rA rB c).toD a (effect s.cfg pc (.rmmovq f rA rB c) a) := by
  simp only [effect, BitVec.add_comm _ c]
  exact ⟨rfl, rfl⟩

/-- `mrmovq` (R314), with the address of `rmmovq`. -/
theorem hasEffect_mrmovq :
    HasEffect s.cfg (s.fetchF10 .mrmovq f rA rB c).toD a (effect s.cfg pc (.mrmovq f rA rB c) a) := by
  simp only [effect, BitVec.add_comm _ c]
  exact ⟨rfl, rfl⟩

/-- The ALU's -8 in front is a decrement by 8. -/
theorem neg8_add (w : Word) : -8 + w = w - 8 := by
  rw [BitVec.sub_eq_add_neg, BitVec.add_comm]

/-- `call` (R379): the ALU adds -8 to RSP. -/
theorem hasEffect_call :
    HasEffect s.cfg (s.fetchF9 .call f c).toD a (effect s.cfg s.fetchPC (.call f c) a) := by
  simp only [effect, ← neg8_add]
  exact ⟨rfl, rfl⟩

/-- `ret` (R380): RSP is read before the ALU adds 8. -/
theorem hasEffect_ret :
    HasEffect s.cfg (s.fetchF1 .aok .ret f).toD a (effect s.cfg pc (.ret f) a) := by
  simp only [effect, BitVec.add_comm _ 8]
  exact ⟨rfl, rfl⟩

/-- `pushq` (R410), with the address of `call`. -/
theorem hasEffect_pushq :
    HasEffect s.cfg (s.fetchF2 .pushq f rA rB).toD a (effect s.cfg pc (.pushq f rA rB) a) := by
  simp only [effect, ← neg8_add]
  exact ⟨rfl, rfl⟩

/-- `popq` (R411): the loaded word is written after RSP + 8. -/
theorem hasEffect_popq :
    HasEffect s.cfg (s.fetchF2 .popq f rA rB).toD a (effect s.cfg pc (.popq f rA rB) a) := by
  simp only [effect, BitVec.add_comm _ 8]
  exact ⟨rfl, rfl⟩

end

/-- The codes 12 to 15 are four of the icodes without an effect. -/
theorem ofNibble_mem_of_nonInstruction {c : Nibble} (h : 12 ≤ c.toNat) :
    Icode.ofNibble c ∈ [Icode.codeC, .codeD, .codeE, .codeF] := by
  revert c; decide

/-- The packet of a well-formed instruction has the instruction's Effect line. -/
theorem packetOf_hasEffect {i : Instr} (hi : i.wf = true) (s : State) (a : Arch) :
    HasEffect s.cfg (packetOf i s).toD a (effect s.cfg s.fetchPC i a) := by
  cases i with
  | halt f => exact hasEffect_idle s a f _ .hlt _ (by decide)
  | nop f => exact hasEffect_idle s a f _ .aok _ (by decide)
  | nonInstruction c f =>
    have hc : 12 ≤ c.toNat := by simpa [Instr.wf] using hi
    exact hasEffect_idle s a f _ .ins _ (.tail _ (.tail _ (ofNibble_mem_of_nonInstruction hc)))
  | rrmovq | cmovle | cmovl | cmove | cmovne | cmovge | cmovg => exact hasEffect_move s a _ _ _ _
  | reservedCmov7 => exact hasEffect_reservedMove s a _ _ _ _ (by decide)
  | reservedCmov8F f =>
    have hf : 8 ≤ f.toNat := by simpa [Instr.wf] using hi
    exact hasEffect_reservedMove s a _ _ _ _ (by omega)
  | addq | subq | andq | xorq => exact hasEffect_operation s a _ _ _ _
  | reservedOp47 f =>
    have hf : 4 ≤ f.toNat ∧ f.toNat ≤ 7 := by simpa [Instr.wf] using hi
    exact hasEffect_reservedOperation s a _ _ _ _ hf.1
  | reservedOp8F f =>
    have hf : 8 ≤ f.toNat := by simpa [Instr.wf] using hi
    exact hasEffect_reservedOperation s a _ _ _ _ (by omega)
  | jmp | jle | jl | je | jne | jge | jg | reservedJump7 | reservedJump8F =>
    exact hasEffect_jump s a _ _ _
  | irmovq => exact hasEffect_irmovq s a _ _ _ _ _
  | rmmovq => exact hasEffect_rmmovq s a _ _ _ _ _
  | mrmovq => exact hasEffect_mrmovq s a _ _ _ _ _
  | call => exact hasEffect_call s a _ _
  | ret => exact hasEffect_ret s a _ _
  | pushq => exact hasEffect_pushq s a _ _ _ _
  | popq => exact hasEffect_popq s a _ _ _ _

/-! ### Its status decides whether the run goes on -/

/-- Among well-formed instructions exactly HALT is fetched with status HLT (40_fetch.md R147). -/
theorem packetOf_stat_eq_hlt_iff {i : Instr} (hi : i.wf = true) (s : State) :
    (packetOf i s).stat = .hlt ↔ (packetOf i s).icode = .halt := by
  cases i with
  | nonInstruction c f =>
    have hc := ofNibble_mem_of_nonInstruction (c := c) (by simpa [Instr.wf] using hi)
    refine ⟨fun h => (nomatch h), fun h => ?_⟩
    change Icode.ofNibble c = .halt at h
    rw [h] at hc
    exact absurd hc (by decide)
  | halt => exact ⟨fun _ => rfl, fun _ => rfl⟩
  | _ => exact ⟨fun h => (nomatch h), fun h => (nomatch h)⟩

theorem escalate_eq_hlt_iff {st : Stat} {ok : Bool} : st.escalate ok = .hlt ↔ ok = true ∧ st = .hlt := by
  cases ok <;> simp [Stat.escalate]

/-- Memory neither gives nor takes the status HLT: a HALT makes no access that could fail. -/
theorem nextW_stat_eq_hlt_iff {cfg : Config} {M : MReg} {mem : Memory} (h : M.stat = .hlt ↔ M.icode = .halt) :
    (nextW cfg M mem).stat = .hlt ↔ (nextW cfg M mem).icode = .halt := by
  rw [nextW_stat, nextW_icode, escalate_eq_hlt_iff, h]
  refine and_iff_right_of_imp fun hhalt => ?_
  rw [accessOf_eq_none (by simp [hhalt])]
  rfl

/-- The stop condition by status alone, for a W in which HLT is the status of HALT (43_memory_writeback.md R249). -/
theorem goesOn_iff {policy : StopPolicy} {W : WReg} (h : W.stat = .hlt ↔ W.icode = .halt) :
    (!stopsRun policy W) = true ↔
      W.stat ≠ .hlt ∧ (policy = .anyNonAok → W.stat = .aok) := by
  rw [Bool.not_eq_true', ← Bool.not_eq_true, stopsRun_iff, ← h]
  cases W.stat <;> simp

/-- Settles O56: after three nops the instruction is alone in W, the fourth writes its registers back, and the way of
its packet through the stages is its Effect line. -/
theorem loneInstructionHasItsEffect : Obligations.LoneInstructionHasItsEffect := by
  intro i s hi hrun hidle
  obtain ⟨s4, hfeed, alone⟩ := feed_lone i hrun hidle
  obtain ⟨harch, hstat⟩ := packetOf_hasEffect hi s s.arch
  have hW : s4.W.stat = (effect s.cfg s.fetchPC i s.arch).stat := by rw [alone.W, hstat]
  refine ⟨s4, _, hfeed, exec_next_iff.2 ⟨alone.running, rfl⟩, ?arch, hW, ?idle, ?running⟩
  case arch =>
    rw [← harch, State.arch, State.tick_x, State.tick_cc, State.tick_mem, alone.W, alone.x,
      nextCC_of_idle alone.idleE, alone.cc, nextMem_of_idle alone.idleM, alone.mem]
    rfl
  case idle => simp [idle_iff, alone.idleD, alone.idleE, alone.idleM]
  case running =>
    have hhlt : s4.W.stat = .hlt ↔ s4.W.icode = .halt := by
      rw [alone.W]
      exact nextW_stat_eq_hlt_iff (packetOf_stat_eq_hlt_iff hi s)
    rw [State.tick_running, goesOn_iff hhlt, hW, alone.cfg]

end Sys2Proof.Proofs

/-! PROOFS. Control transfers (46_control.md): where the next tick fetches (40_fetch.md R140), what the tick of an
access in M stores or loads (43_memory_writeback.md R231, R232, R234), and the way of a jump, a call and a return
through the stages. -/

namespace Sys2Proof.Proofs

open Sys2Proof Sys2Proof.Machine Sys2Proof.Claims

/-! ### The fetch address -/

section
variable {s : State}

/-- First match: a mispredicted jump in M has its fallthrough fetched. -/
theorem fetchPC_of_mispredicted (hjxx : s.M.icode = .jxx) (hcnd : s.M.Cnd = false) : s.fetchPC = s.M.valA := by
  simp [State.fetchPC, selectPC, hjxx, hcnd]

/-- Second match: a return in W has the loaded word fetched. -/
theorem fetchPC_of_return (hM : ¬(s.M.icode = .jxx ∧ s.M.Cnd = false)) (hret : s.W.icode = .ret) :
    s.fetchPC = s.W.valM := by
  simp [State.fetchPC, selectPC, hM, hret]

/-- No match: the predicted address is fetched. -/
theorem fetchPC_of_no_redirect (hM : ¬(s.M.icode = .jxx ∧ s.M.Cnd = false)) (hret : s.W.icode ≠ .ret) :
    s.fetchPC = s.F.predPC := by
  simp [State.fetchPC, selectPC, hM, hret]

end

/-! ### The ports in the words of the claims -/

section
variable (cfg : Config) (m : Memory) (a v : Word)

theorem inRange_eight_iff {cfg : Config} {a : Word} : inRange cfg a 8 = true ↔ InRange8 cfg a := by
  simp [inRange_iff, InRange8]

theorem accessStat_escalate : AccessStat cfg a (Stat.escalate .aok (inRange cfg a 8)) :=
  ⟨fun h => by simp [inRange_eight_iff.2 h, Stat.escalate],
    fun h => by simp [mt inRange_eight_iff.1 h, Stat.escalate]⟩

theorem loaded_getLong : Loaded cfg m a ((getLong cfg m a).getD 0) := by
  constructor
  · intro h k hk
    simp [getLong, inRange_eight_iff.2 h, Memory.byteOfWord_getWord m a.toNat k hk]
  · intro h
    simp [getLong, mt inRange_eight_iff.1 h]

theorem stored_putLong {m : Memory} (hm : m.wf) : Stored cfg a v m (putLong cfg m a v) := by
  refine ⟨fun h => ?inside, fun h b => ?outside⟩
  case outside => simp [putLong, mt inRange_eight_iff.1 h]
  case inside =>
    have hput : ∀ b, (putLong cfg m a v).get b =
        if a.toNat ≤ b ∧ b < a.toNat + 8 then byteOfWord v (b - a.toNat) else m.get b := by
      simp [putLong, inRange_eight_iff.2 h, Memory.get_setWord hm]
    exact ⟨fun k hk => by simp [hput, hk], fun b hb => by rw [hput, if_neg (by omega)]⟩

end

/-! ### The tick of an AOK instruction's access, and of its Writeback -/

section
variable {s : State} (g : Fetched) {a v : Word}

theorem tick_mem_wf (hm : s.mem.wf) : (s.tick g).mem.wf := nextMem_wf hm _

theorem tick_stores (hm : s.mem.wf) (haok : s.M.stat = .aok) (hacc : accessOf s.M = .write a v) :
    Stored s.cfg a v s.mem (s.tick g).mem ∧ AccessStat s.cfg a (s.tick g).W.stat := by
  rw [State.tick_mem, State.tick_W, nextW_stat, haok, hacc]
  exact ⟨stored_putLong s.cfg a v hm, accessStat_escalate s.cfg a⟩

theorem tick_loads (haok : s.M.stat = .aok) (hacc : accessOf s.M = .read a) :
    (s.tick g).mem = s.mem ∧ Loaded s.cfg s.mem a (s.tick g).W.valM ∧
      AccessStat s.cfg a (s.tick g).W.stat := by
  rw [State.tick_mem, State.tick_W, nextW_stat, nextW_valM, haok, hacc]
  exact ⟨rfl, loaded_getLong s.cfg s.mem a, accessStat_escalate s.cfg a⟩

/-- Writeback of an instruction with one destination: M staged its valE and dstE (43_memory_writeback.md R236, R246). -/
theorem tick_tick_x_of_dstM_none (g' : Fetched) (hhalt : s.M.icode ≠ .halt) (hdst : s.M.dstM = none) :
    ((s.tick g).tick g').x = writeReg (s.tick g).x s.M.dstE s.M.valE := by
  rw [State.tick_x, nextX_of_ne_halt _ hhalt]
  simp [hdst]

end

/-! ### Jumps -/

section
variable (Dest : Word)

/-- Every row is fetched as a JXX of its ifun (R370). -/
theorem jumps_packet (s : State) : ∀ p ∈ jumps Dest, packetOf p.1 s = s.fetchF9 .jxx p.2.1 Dest := by
  simp [jumps, packetOf]

/-- A row's condition is the one its ifun selects (R371 to R378, 42_execute.md R208). -/
theorem jumps_condition (cc : CC) : ∀ p ∈ jumps Dest, condition p.2.1 cc = p.2.2 cc := by
  simp [jumps, condition]

end

/-- Settles O51: the JXX of a row's ifun goes through the five stages without a destination or an access; its
fallthrough address and its condition, which are in M two ticks after its fetch, select the fetch address. -/
theorem jumpsRedirectFetch : Obligations.JumpsRedirectFetch := by
  intro s Dest p hp hrun
  let s1 := s.tick (s.fetchF9 .jxx p.2.1 Dest)
  let s2 := s1.tick s1.nextPacket
  let s3 := s2.tick s2.nextPacket
  have hM : s3.M = ⟨.aok, .jxx, p.2.2 s2.cc, 0, s.fetchPC + 9, none, none⟩ := by
    rw [← jumps_condition Dest s2.cc p hp]
    rfl
  have hcnd : s3.M.Cnd = p.2.2 s2.cc := by rw [hM]
  refine ⟨s1, exec_next_iff.2 ⟨hrun, by rw [jumps_packet Dest s p hp]⟩, rfl, rfl, fetchPC_of_no_redirect,
    next_of_tick ⟨rfl, next_of_tick ⟨rfl, hM, fun hfails => ?corrected, fun hholds => ?predicted,
      next_of_tick ⟨rfl, rfl, next_of_tick ⟨rfl, ?running⟩⟩⟩⟩⟩
  case corrected => exact fetchPC_of_mispredicted rfl (hcnd.trans hfails)
  case predicted =>
    have htaken : s3.M.Cnd = true := hcnd.trans hholds
    exact fetchPC_of_no_redirect (s := s3) (by simp [htaken])
  case running => rw [State.tick_running, stopsRun_of_aok rfl Icode.noConfusion]; rfl

/-! ### Call and return -/

/-- Settles O52: a CALL carries its return address in valA, and Execute's RSP - 8 is both the address of the store in
M and the value written back. -/
theorem callPushesReturnAddress : Obligations.CallPushesReturnAddress := by
  intro s f Dest hrun hmem
  let s1 := s.tick (s.fetchF9 .call f Dest)
  let s2 := s1.tick s1.nextPacket
  let s3 := s2.tick s2.nextPacket
  have hM : s3.M = ⟨.aok, .call, true, s1.operand RSP - 8, s.fetchPC + 9, RSP, none⟩ := by
    rw [← neg8_add]
    rfl
  have hmem3 : s3.mem.wf := tick_mem_wf _ (tick_mem_wf _ (tick_mem_wf _ hmem))
  have hacc : accessOf s3.M = .write (s1.operand RSP - 8) (s.fetchPC + 9) := by rw [hM]; rfl
  obtain ⟨hstored, hstat⟩ := tick_stores s3.nextPacket hmem3 rfl hacc
  refine ⟨s1, exec_next_iff.2 ⟨hrun, rfl⟩, rfl, rfl,
    next_of_tick ⟨rfl, next_of_tick ⟨rfl, hM, next_of_tick ⟨hstored, hstat, next_of_tick ?x⟩⟩⟩⟩
  case x => rw [tick_tick_x_of_dstM_none _ _ Icode.noConfusion rfl, hM]; rfl

/-- Settles O53: a RET carries the old RSP in valA, where M reads, and Execute's RSP + 8 in valE, which is written
back; in W its loaded word is the second match of the fetch address. -/
theorem retFetchesPoppedAddress : Obligations.RetFetchesPoppedAddress := by
  intro s f hrun
  let s1 := s.tick (s.fetchF1 .aok .ret f)
  let s2 := s1.tick s1.nextPacket
  let s3 := s2.tick s2.nextPacket
  have hM : s3.M = ⟨.aok, .ret, true, s1.operand RSP + 8, s1.operand RSP, RSP, none⟩ := by
    rw [BitVec.add_comm _ 8]
    rfl
  obtain ⟨hmem, hloaded, hstat⟩ := tick_loads (s := s3) (a := s1.operand RSP) s3.nextPacket rfl rfl
  refine ⟨s1, exec_next_iff.2 ⟨hrun, rfl⟩, rfl, rfl,
    next_of_tick ⟨rfl, next_of_tick ⟨rfl, hM, next_of_tick ⟨hmem, hloaded, hstat,
      fun hjxx => fetchPC_of_return hjxx rfl, fetchPC_of_mispredicted, next_of_tick ?x⟩⟩⟩⟩
  case x => rw [tick_tick_x_of_dstM_none _ _ Icode.noConfusion rfl, hM]; rfl

end Sys2Proof.Proofs

/-! PROOFS. The stack instructions (47_stack.md): what Writeback leaves in each of an instruction's two destinations
(43_memory_writeback.md R246, R250), and the way of a push and a pop through the stages. -/

namespace Sys2Proof.Proofs

open Sys2Proof Sys2Proof.Machine Sys2Proof.Claims

/-! ### The destinations after Writeback -/

section
variable {W : WReg} (x : RegFile) {n : Fin 16}

/-- The dstM write comes last, so it remains also in a register that is both destinations (R250, D23). -/
theorem nextX_dstM (hhalt : W.icode ≠ .halt) (hM : W.dstM = some n) : (nextX W x)[n] = W.valM := by
  rw [nextX_of_ne_halt x hhalt, ← readReg_some, readReg_writeReg]
  simp [hM]

/-- The dstE write remains in a register that is not dstM. -/
theorem nextX_dstE (hhalt : W.icode ≠ .halt) (hE : W.dstE = some n) (hM : W.dstM ≠ some n) :
    (nextX W x)[n] = W.valE := by
  rw [nextX_of_ne_halt x hhalt, ← readReg_some, readReg_writeReg, readReg_writeReg]
  simp [hE, hM]

end

/-! ### Push and pop -/

/-- Settles O54: a PUSHQ resolves rA and the old RSP in the same tick, which is all that `pushq %rsp` asks for, and
Execute's RSP - 8 is both the address of the store in M and the value written back. -/
theorem pushqStoresAndDecrements : Obligations.PushqStoresAndDecrements := by
  intro s f rA rB hrun hmem
  let s1 := s.tick (s.fetchF2 .pushq f rA rB)
  let s2 := s1.tick s1.nextPacket
  let s3 := s2.tick s2.nextPacket
  have hM : s3.M = ⟨.aok, .pushq, true, s1.operand RSP - 8, s1.operand (regOf s.cfg rA), RSP, none⟩ := by
    rw [← neg8_add]
    rfl
  have hmem3 : s3.mem.wf := tick_mem_wf _ (tick_mem_wf _ (tick_mem_wf _ hmem))
  have hacc : accessOf s3.M = .write (s1.operand RSP - 8) (s1.operand (regOf s.cfg rA)) := by rw [hM]; rfl
  obtain ⟨hstored, hstat⟩ := tick_stores s3.nextPacket hmem3 rfl hacc
  refine ⟨s1, exec_next_iff.2 ⟨hrun, rfl⟩, rfl, rfl,
    next_of_tick ⟨rfl, next_of_tick ⟨rfl, hM, next_of_tick ⟨hstored, hstat, next_of_tick ?x⟩⟩⟩⟩
  case x => rw [tick_tick_x_of_dstM_none _ _ Icode.noConfusion rfl, hM]; rfl

/-- Settles O55: a POPQ carries the old RSP in valA, where M reads, and Execute's RSP + 8 in valE; Writeback leaves the
loaded word in rA, RSP + 8 in an RSP that is not rA, and every other register alone. -/
theorem popqLoadsAndIncrements : Obligations.PopqLoadsAndIncrements := by
  intro s f rA rB hrun
  let s1 := s.tick (s.fetchF2 .popq f rA rB)
  let s2 := s1.tick s1.nextPacket
  let s3 := s2.tick s2.nextPacket
  let s4 := s3.tick s3.nextPacket
  have hM : s3.M = ⟨.aok, .popq, true, s1.operand RSP + 8, s1.operand RSP, RSP, regOf s.cfg rA⟩ := by
    rw [BitVec.add_comm _ 8]
    rfl
  have hvalE : s4.W.valE = s1.operand RSP + 8 := by rw [State.tick_W, nextW_valE, hM]
  obtain ⟨hmem, hloaded, hstat⟩ := tick_loads (s := s3) (a := s1.operand RSP) s3.nextPacket rfl rfl
  have hhalt : s4.W.icode ≠ .halt := Icode.noConfusion
  refine ⟨s1, exec_next_iff.2 ⟨hrun, rfl⟩, rfl, rfl,
    next_of_tick ⟨rfl, next_of_tick ⟨rfl, hM, next_of_tick ⟨hmem, hloaded, hstat,
      next_of_tick fun n => ⟨fun hrA => ?loaded, fun hrA hn => ?incremented, fun hrA hn => ?other⟩⟩⟩⟩⟩
  case loaded => exact nextX_dstM s4.x hhalt hrA
  case incremented =>
    subst hn
    exact (nextX_dstE s4.x hhalt rfl hrA).trans hvalE
  case other =>
    have hdstE : s4.W.dstE ≠ some n := fun h => hn (Option.some.inj h).symm
    exact nextX_other s4.x hdstE hrA

end Sys2Proof.Proofs

/-! PROOFS. The encoding (30_encoding.md): the decoder undoes the encoder, and what it can answer, said once: it reads
exactly the bytes of a well-formed instruction whose length its icode gives, or there are too few of them. -/

namespace Sys2Proof.Proofs

open Sys2Proof Sys2Proof.Machine Sys2Proof.Laws

/-! ### Decoding an encoding -/

/-- The round trip of every instruction, from the lemma of its constructor. -/
theorem decode_encode (i : Instr) : RoundTrip.Statement i := by
  cases i
  exacts [RoundTrip.halt _, RoundTrip.nop _, RoundTrip.rrmovq _ _, RoundTrip.cmovle _ _, RoundTrip.cmovl _ _,
    RoundTrip.cmove _ _, RoundTrip.cmovne _ _, RoundTrip.cmovge _ _, RoundTrip.cmovg _ _,
    RoundTrip.reservedCmov7 _ _, RoundTrip.reservedCmov8F _ _ _, RoundTrip.irmovq _ _ _ _,
    RoundTrip.rmmovq _ _ _ _, RoundTrip.mrmovq _ _ _ _, RoundTrip.addq _ _, RoundTrip.subq _ _,
    RoundTrip.andq _ _, RoundTrip.xorq _ _, RoundTrip.reservedOp47 _ _ _, RoundTrip.reservedOp8F _ _ _,
    RoundTrip.jmp _, RoundTrip.jle _, RoundTrip.jl _, RoundTrip.je _, RoundTrip.jne _, RoundTrip.jge _,
    RoundTrip.jg _, RoundTrip.reservedJump7 _, RoundTrip.reservedJump8F _ _, RoundTrip.call _ _,
    RoundTrip.ret _, RoundTrip.pushq _ _ _, RoundTrip.popq _ _ _, RoundTrip.nonInstruction _ _]

/-- Settles O2: the round trip of every constructor is a law of the model. -/
theorem decodeOfEncode : Obligations.DecodeOfEncode := decode_encode

/-- The row of every well-formed instruction covers the first byte of its encoding, from the lemma of its
constructor. -/
theorem encode_rowShape (i : Instr) : RowShape.Statement i := by
  cases i
  exacts [RowShape.halt _, RowShape.nop _, RowShape.rrmovq _ _, RowShape.cmovle _ _, RowShape.cmovl _ _,
    RowShape.cmove _ _, RowShape.cmovne _ _, RowShape.cmovge _ _, RowShape.cmovg _ _,
    RowShape.reservedCmov7 _ _, RowShape.reservedCmov8F _ _ _, RowShape.irmovq _ _ _ _,
    RowShape.rmmovq _ _ _ _, RowShape.mrmovq _ _ _ _, RowShape.addq _ _, RowShape.subq _ _, RowShape.andq _ _,
    RowShape.xorq _ _, RowShape.reservedOp47 _ _ _, RowShape.reservedOp8F _ _ _, RowShape.jmp _,
    RowShape.jle _, RowShape.jl _, RowShape.je _, RowShape.jne _, RowShape.jge _, RowShape.jg _,
    RowShape.reservedJump7 _, RowShape.reservedJump8F _ _, RowShape.call _ _, RowShape.ret _,
    RowShape.pushq _ _ _, RowShape.popq _ _ _, RowShape.nonInstruction _ _]

/-! ### What the decoder can answer -/

/-- The answer `d` of a decoder for a first byte of icode `c` and ifun `f` and the bytes after it: a well-formed
instruction of the icode's length, encoded in front of the bytes left over; or there are too few bytes. -/
def AnswersFor (c : Icode) (f : Nibble) (bytes : List Byte) (d : Decoded) : Prop :=
  (∃ i tail, d = .ok (i, tail) ∧ i.wf = true ∧ i.length = Reference.length c ∧
      byteOfNibbles c.toNibble f :: bytes = encode i ++ tail) ∨
    (bytes.length + 1 < Reference.length c ∧ ∃ e, d = .error e)

section
variable {c : Icode} {f : Nibble} {bytes : List Byte}

/-- A one-byte instruction needs nothing but its first byte (format F1). -/
theorem answersFor_F1 {i : Instr} (hlen : Reference.length c = 1) (hwf : i.wf = true)
    (henc : encode i = [byteOfNibbles c.toNibble f]) : AnswersFor c f bytes (.ok (i, bytes)) :=
  .inl ⟨i, bytes, rfl, hwf, by simp [← encode_length, henc, hlen], by simp [henc]⟩

/-- Format F2: there is a register byte, or no byte at all. -/
theorem answersFor_F2 {mk : Nibble → Nibble → Instr} (hlen : Reference.length c = 2)
    (hmk : ∀ rA rB, (mk rA rB).wf = true ∧ encode (mk rA rB) = encodeF2 c f rA rB) :
    AnswersFor c f bytes (decodeF2 mk bytes) := by
  cases bytes with
  | nil => exact .inr ⟨by simp [hlen], _, rfl⟩
  | cons b rest =>
    obtain ⟨hwf, henc⟩ := hmk (hiNibble b) (loNibble b)
    exact .inl ⟨_, rest, rfl, hwf, by simp [← encode_length, henc, encodeF2, hlen], by simp [henc, encodeF2]⟩

/-- Format F9: there is a constant, or there are fewer than eight bytes. -/
theorem answersFor_F9 {mk : Word → Instr} (hlen : Reference.length c = 9)
    (hmk : ∀ v, (mk v).wf = true ∧ encode (mk v) = encodeF9 c f v) :
    AnswersFor c f bytes (decodeF9 mk bytes) := by
  rcases withConstant_cases (fun v rest => .ok (mk v, rest)) bytes with ⟨v, rest, rfl, hd⟩ | ⟨hshort, hd⟩
  · obtain ⟨hwf, henc⟩ := hmk v
    exact .inl ⟨_, rest, hd, hwf, by simp [← encode_length, henc, encodeF9, hlen], by simp [henc, encodeF9]⟩
  · exact .inr ⟨by omega, _, hd⟩

/-- Format F10: a register byte in front of a constant. -/
theorem answersFor_F10 {mk : Nibble → Nibble → Word → Instr} (hlen : Reference.length c = 10)
    (hmk : ∀ rA rB v, (mk rA rB v).wf = true ∧ encode (mk rA rB v) = encodeF10 c f rA rB v) :
    AnswersFor c f bytes (decodeF10 mk bytes) := by
  cases bytes with
  | nil => exact .inr ⟨by simp [hlen], _, rfl⟩
  | cons b bs =>
    rcases withConstant_cases (fun v rest => .ok (mk (hiNibble b) (loNibble b) v, rest)) bs with
      ⟨v, rest, rfl, hd⟩ | ⟨hshort, hd⟩
    · obtain ⟨hwf, henc⟩ := hmk (hiNibble b) (loNibble b) v
      exact .inl ⟨_, rest, hd, hwf, by simp [← encode_length, henc, encodeF10, hlen],
        by simp [henc, encodeF10]⟩
    · exact .inr ⟨by simp [hlen]; omega, _, hd⟩

end

/-! ### The instructions of an icode with functions -/

/-- RRMOVQ by ifun gives a well-formed move of that ifun. -/
theorem moveOfIfun_encodes (f rA rB : Nibble) :
    (moveOfIfun f rA rB).wf = true ∧ encode (moveOfIfun f rA rB) = encodeF2 .rrmovq f rA rB := by
  unfold moveOfIfun
  split
  iterate 8 exact ⟨rfl, rfl⟩
  exact ⟨decide_eq_true (by revert f; decide), rfl⟩

/-- OPQ by ifun gives a well-formed operation of that ifun. -/
theorem opOfIfun_encodes (f rA rB : Nibble) :
    (opOfIfun f rA rB).wf = true ∧ encode (opOfIfun f rA rB) = encodeF2 .opq f rA rB := by
  unfold opOfIfun
  split
  iterate 4 exact ⟨rfl, rfl⟩
  split
  · exact ⟨by simp only [Instr.wf, Bool.and_eq_true, decide_eq_true_eq]; revert f; decide, rfl⟩
  · exact ⟨decide_eq_true (by omega), rfl⟩

/-- JXX by ifun gives a well-formed jump of that ifun. -/
theorem jumpOfIfun_encodes (f : Nibble) (Dest : Word) :
    (jumpOfIfun f Dest).wf = true ∧ encode (jumpOfIfun f Dest) = encodeF9 .jxx f Dest := by
  unfold jumpOfIfun
  split
  iterate 8 exact ⟨rfl, rfl⟩
  exact ⟨decide_eq_true (by revert f; decide), rfl⟩

/-- What the decoder answers, by the icode and the ifun of the first byte. -/
theorem decode_answersFor (c : Icode) (f : Nibble) (bytes : List Byte) :
    AnswersFor c f bytes (decode (byteOfNibbles c.toNibble f :: bytes)) := by
  simp only [decode, hiNibble_byteOfNibbles, loNibble_byteOfNibbles, Icode.ofNibble_toNibble]
  cases c with
  | halt | nop | ret | codeC | codeD | codeE | codeF => exact answersFor_F1 rfl rfl rfl
  | rrmovq => exact answersFor_F2 rfl (moveOfIfun_encodes f)
  | opq => exact answersFor_F2 rfl (opOfIfun_encodes f)
  | pushq | popq => exact answersFor_F2 rfl fun _ _ => ⟨rfl, rfl⟩
  | jxx => exact answersFor_F9 rfl (jumpOfIfun_encodes f)
  | call => exact answersFor_F9 rfl fun _ => ⟨rfl, rfl⟩
  | irmovq | rmmovq | mrmovq => exact answersFor_F10 rfl fun _ _ _ => ⟨rfl, rfl⟩

/-- What the decoder answers for a list that has a first byte. -/
theorem decode_cases (b : Byte) (bytes : List Byte) :
    (∃ i tail, decode (b :: bytes) = .ok (i, tail) ∧ i.wf = true ∧
        i.length = Reference.length (.ofNibble (hiNibble b)) ∧ b :: bytes = encode i ++ tail) ∨
      (bytes.length + 1 < Reference.length (.ofNibble (hiNibble b)) ∧
        ∃ e, decode (b :: bytes) = .error e) := by
  simpa [AnswersFor] using decode_answersFor (.ofNibble (hiNibble b)) (loNibble b) bytes

/-- Settles O3: an answer that is an instruction is one of the cases of what the decoder can answer. -/
theorem encodeOfDecode : Obligations.EncodeOfDecode := by
  intro bs rest i h
  cases bs with
  | nil => cases h
  | cons b bytes =>
    rcases decode_cases b bytes with ⟨j, tail, hok, hwf, -, hbytes⟩ | ⟨-, e, herror⟩
    · cases hok.symm.trans h
      exact ⟨hwf, hbytes⟩
    · cases herror.symm.trans h

/-- Settles O5: the decoder answers an instruction, whose bytes are there, or too few bytes, never both. -/
theorem lengthFromIcode : Obligations.LengthFromIcode := by
  intro b bytes
  rcases decode_cases b bytes with ⟨i, tail, hok, -, hlen, hbytes⟩ | ⟨hshort, herror⟩
  · have hconsumed : bytes.length + 1 = i.length + tail.length := by
      simpa using congrArg List.length hbytes
    exact ⟨fun _ => ⟨i, tail, hok, hlen, hconsumed⟩, fun h => by omega⟩
  · exact ⟨fun h => by omega, fun _ => herror⟩

/-! ### The rows of the opcode table -/

/-- No first byte is covered by two rows (30_encoding.md R111). -/
theorem one_row_covers : ∀ b : Byte, (opcodeRows.filter fun r => r.covers b).length = 1 := by
  decide

/-- A row that covers a first byte is all the table has for it. -/
theorem rows_covering {r : OpcodeRow} {b : Byte} (hr : r ∈ opcodeRows) (hcovers : r.covers b = true) :
    (opcodeRows.filter fun r => r.covers b) = [r] := by
  obtain ⟨q, hq⟩ := List.length_eq_one_iff.1 (one_row_covers b)
  have hmem : r ∈ opcodeRows.filter fun r => r.covers b := List.mem_filter.2 ⟨hr, hcovers⟩
  rw [hq, List.mem_singleton] at hmem
  rw [hq, hmem]

/-- No icode needs more than ten bytes (30_encoding.md R101, R113). -/
theorem length_le_maxLength (c : Icode) : Reference.length c ≤ maxLength := by
  cases c <;> decide

/-- The first byte of bytes that begin with an encoding is the encoding's. -/
theorem encode_headD {i : Instr} {b : Byte} {bytes tail : List Byte} (h : b :: bytes = encode i ++ tail) :
    (encode i).headD 0 = b := by
  cases henc : encode i with
  | nil => exact absurd (encode_length i) (by simp [henc, i.length_pos.ne])
  | cons a as =>
    rw [henc] at h
    exact (List.cons.inj h).1.symm

/-- Settles O4: ten bytes are enough for every icode, and the row of the instruction decoded covers the first byte of
its encoding, which is the byte decoded. -/
theorem firstByteSelectsOneRow : Obligations.FirstByteSelectsOneRow := by
  intro b rest hrest
  have hmax : Reference.length (.ofNibble (hiNibble b)) ≤ 10 := length_le_maxLength _
  rcases decode_cases b rest with ⟨i, tail, hok, hwf, -, hbytes⟩ | ⟨hshort, -⟩
  · obtain ⟨-, r, hr, hname, hcovers⟩ := encode_rowShape i hwf
    rw [encode_headD hbytes] at hcovers
    exact ⟨i, tail, hok, by rw [rows_covering hr hcovers, List.map_singleton, hname]⟩
  · omega

/-- Settles O1: each of the twelve words is decoded by evaluation. -/
theorem tableWordsDecode : Obligations.TableWordsDecode :=
  ⟨rfl, rfl, rfl, rfl, rfl, rfl, rfl, rfl, rfl, rfl, rfl, rfl⟩

end Sys2Proof.Proofs

/-! PROOFS. Fetch (40_fetch.md): what the next packet can be, the status and the prediction of an instruction's packet,
a byte out of range, and the host's placement. -/

namespace Sys2Proof.Proofs

open Sys2Proof Sys2Proof.Machine Sys2Proof.Claims

/-! ### The packet of the next tick -/

section
variable {s : State}

/-- A step is the meaning of the instruction decoded from the window. -/
theorem step_of_decode {i : Instr} {rest : List Byte} (h : decode s.fetchWindow = .ok (i, rest)) :
    step s = exec i s := by
  simp [step, h]

theorem nextPacket_of_decode {i : Instr} {rest : List Byte} (h : decode s.fetchWindow = .ok (i, rest)) :
    s.nextPacket = packetOf i s := by
  simp [State.nextPacket, h]

theorem nextPacket_of_error {e : DecodeError} (h : decode s.fetchWindow = .error e) :
    s.nextPacket = .addressError := by
  simp [State.nextPacket, h]

/-- The next packet is a well-formed instruction's or that of a failed fetch. -/
theorem nextPacket_cases (s : State) :
    (∃ i, i.wf = true ∧ s.nextPacket = packetOf i s) ∨ s.nextPacket = .addressError := by
  cases h : decode s.fetchWindow with
  | ok r =>
    obtain ⟨i, rest⟩ := r
    exact .inl ⟨i, (encodeOfDecode _ _ _ h).1, nextPacket_of_decode h⟩
  | error e => exact .inr (nextPacket_of_error h)

/-- Bytes at f_pc that begin with an encoding decode to the instruction encoded. -/
theorem decode_fetchWindow {i : Instr} {tail : List Byte} (hi : i.wf = true)
    (hlen : (encode i ++ tail).length ≤ maxLength) (hbytes : BytesAtFetch s (encode i ++ tail)) :
    ∃ rest, decode s.fetchWindow = .ok (i, rest) := by
  obtain ⟨rest, hwindow⟩ := readWhileInRange_prefix s.cfg s.mem _ maxLength s.fetchPC hlen hbytes
  exact ⟨tail ++ rest, by rw [State.fetchWindow, hwindow, List.append_assoc, decode_encode i hi]⟩

end

/-- Settles O6: the bytes at f_pc begin the window, where the decoder reads the instruction they encode. -/
theorem stepRunsDecodedInstruction : Obligations.StepRunsDecodedInstruction := by
  intro s i
  refine ⟨fun hi hbytes => ?_, fun rest h => step_of_decode h⟩
  rw [← List.append_nil (encode i)] at hbytes
  obtain ⟨rest, h⟩ := decode_fetchWindow hi (by simp [i.length_le]) hbytes
  exact step_of_decode h

/-- Settles O13: the tick of one packet and the tick of another differ in what the packet is staged into. -/
theorem fetchedInstructionTouchesOnlyDAndPrediction :
    Obligations.FetchedInstructionTouchesOnlyDAndPrediction := by
  intro i j s t u ht hu
  obtain ⟨-, rfl⟩ := exec_next_iff.1 ht
  obtain ⟨-, rfl⟩ := exec_next_iff.1 hu
  rfl

/-- Settles O9: the three cases of the PC selection. -/
theorem fetchAddressPriority : Obligations.FetchAddressPriority := fun _ =>
  ⟨fetchPC_of_mispredicted, fetchPC_of_return, fetchPC_of_no_redirect⟩

/-! ### A byte out of range -/

/-- Settles O7: the window ends before the byte that is out of range, so it does not decode and the fetch-ADR packet
is staged. -/
theorem fetchOutOfRangeStagesAddressError : Obligations.FetchOutOfRangeStagesAddressError := by
  intro s hrun hmissing
  have herror : ∃ e, decode s.fetchWindow = .error e := by
    rcases hmissing with hnone | ⟨b, hb, k, hk, hnone⟩
    · refine ⟨.noOpcodeByte, ?_⟩
      rw [State.fetchWindow, maxLength, readWhileInRange_succ, hnone]
      rfl
    · have hshort := readWhileInRange_short s.cfg s.mem maxLength s.fetchPC k hnone
      rw [maxLength, readWhileInRange_succ, hb] at hshort
      rw [State.fetchWindow, maxLength, readWhileInRange_succ, hb]
      exact (lengthFromIcode b _).2 (by simp only [List.length_cons] at hshort; omega)
  obtain ⟨e, he⟩ := herror
  exact ⟨_, step_next_iff.2 ⟨hrun, rfl⟩, by rw [nextPacket_of_error he]; exact ⟨rfl, rfl⟩⟩

/-! ### The host's placement -/

/-- The bytes of a placed word can be fetched, when their addresses exist. -/
theorem bytesAtFetch_withFetchWord {s : State} (nbits w : Nat) (hm : s.mem.wf) (hcfg : s.cfg.wf)
    (hroom : s.fetchPC.toNat + 10 ≤ s.cfg.memSize) :
    BytesAtFetch (s.withFetchWord nbits w) (tableBytes nbits w) := by
  intro k hk
  have hk10 : k < 10 := by simpa using hk
  have haddr : (s.fetchPC + BitVec.ofNat 64 k).toNat = s.fetchPC.toNat + k := by
    obtain ⟨-, hsize⟩ := hcfg
    simp; omega
  have hin : inRange s.cfg (s.fetchPC + BitVec.ofNat 64 k) 1 = true :=
    inRange_iff.2 ⟨by omega, by simp⟩
  rw [State.withFetchWord_fetchPC, State.withFetchWord_cfg, State.withFetchWord_mem,
    writeInRange_eq_setBytes _ _ _ _ hcfg.2 (by simpa using hroom)]
  simp [getByte, hin, haddr, Memory.get_setBytes hm, hk10]

/-- Settles O8: the placed bytes are fetched; as they decode to the instruction they are its encoding and what is left
over, and so the window decodes to it too. -/
theorem placedWordIsRun : Obligations.PlacedWordIsRun := by
  intro s nbits w i hm hcfg hroom hdecode
  have hbytes := bytesAtFetch_withFetchWord nbits w hm hcfg hroom
  have hlen := tableBytes_length nbits w
  unfold decodeTableWord at hdecode
  cases hword : decode (tableBytes nbits w) with
  | error e => simp [hword] at hdecode
  | ok r =>
    obtain ⟨j, tail⟩ := r
    obtain rfl : j = i := by simpa [hword] using hdecode
    obtain ⟨hwf, henc⟩ := encodeOfDecode _ _ _ hword
    rw [henc] at hbytes hlen
    obtain ⟨rest, h⟩ := decode_fetchWindow hwf hlen.le hbytes
    exact step_of_decode h

/-! ### Status and prediction -/

/-- The status of an instruction that could be read (R147). -/
def fetchStat (icode : Icode) : Stat :=
  if Reference.notInstruction icode then .ins else if icode = .halt then .hlt else .aok

/-- The address predicted after an instruction (R148). -/
def predictedPC (icode : Icode) (valC valP : Word) : Word :=
  if [Icode.jxx, .call].contains icode then valC else valP

/-- A well-formed non-instruction's icode is one of the last four. -/
theorem icode_of_nonInstruction {c f : Nibble} (h : (Instr.nonInstruction c f).wf = true) :
    Icode.ofNibble c ∈ [Icode.codeC, .codeD, .codeE, .codeF] :=
  ofNibble_mem_of_nonInstruction (by simpa [Instr.wf] using h)

/-- A well-formed non-instruction has no icode of an instruction. -/
theorem icode_ne_of_nonInstruction {c f : Nibble} {icode : Icode} (h : (Instr.nonInstruction c f).wf = true)
    (hicode : icode ∉ [Icode.codeC, .codeD, .codeE, .codeF]) : Icode.ofNibble c ≠ icode :=
  fun e => hicode (e ▸ icode_of_nonInstruction h)

/-- A well-formed instruction's packet has its icode's status. -/
theorem packetOf_stat {i : Instr} (hi : i.wf = true) (s : State) :
    (packetOf i s).stat = fetchStat (packetOf i s).icode := by
  cases i with
  | nonInstruction c f =>
    have hall : ∀ icode ∈ [Icode.codeC, .codeD, .codeE, .codeF], Stat.ins = fetchStat icode := by decide
    exact hall _ (icode_of_nonInstruction hi)
  | _ => rfl

/-- A well-formed instruction's packet predicts what its icode says. -/
theorem packetOf_predPC {i : Instr} (hi : i.wf = true) (s : State) :
    (packetOf i s).predPC =
      predictedPC (packetOf i s).icode (packetOf i s).valC (packetOf i s).valP := by
  cases i with
  | nonInstruction c f =>
    have hall : ∀ icode ∈ [Icode.codeC, .codeD, .codeE, .codeF],
        s.fetchPC + 1 = predictedPC icode 0 (s.fetchPC + 1) := by simp [predictedPC]
    exact hall _ (icode_of_nonInstruction hi)
  | _ => rfl

/-- Settles O11: the prediction staged into F is the packet's. -/
theorem jumpsAndCallsPredictedTaken : Obligations.JumpsAndCallsPredictedTaken := by
  intro i s hi hrun
  have hpred := packetOf_predPC hi s
  refine ⟨_, exec_next_iff.2 ⟨hrun, rfl⟩, fun htaken => ?taken, fun hjxx hcall => ?fallthrough⟩
  case taken => exact hpred.trans (if_pos (by simpa using htaken))
  case fallthrough => exact hpred.trans (if_neg (by simpa using ⟨hjxx, hcall⟩))

/-- Settles O12: the status staged into D is the packet's. -/
theorem fetchStatusFromIcode : Obligations.FetchStatusFromIcode := by
  intro i s hi hrun
  have hstat := packetOf_stat hi s
  refine ⟨_, exec_next_iff.2 ⟨hrun, rfl⟩, fun hins => ?ins, fun hhalt => ?hlt, fun hhalt hins => ?aok⟩
  case ins => exact hstat.trans (if_pos hins)
  case hlt =>
    rw [State.tick_D, Fetched.toD_icode] at hhalt
    rw [State.tick_D, Fetched.toD_stat, hstat, hhalt]
    rfl
  case aok =>
    rw [State.tick_D, Fetched.toD_icode] at hhalt hins
    rw [State.tick_D, Fetched.toD_stat, hstat, fetchStat, hins, if_neg hhalt]
    rfl

end Sys2Proof.Proofs

/-! PROOFS. The invariant of a run: what each stage stages meets the part of the invariant about the register it stages
into, whatever the registers it reads from hold beyond theirs; and what the invariant excludes. -/

namespace Sys2Proof.Proofs

open Sys2Proof Sys2Proof.Machine

/-! ### Fetch into D -/

/-- The status by icode is one an instruction can have before Memory (60_exceptions.md R502, R503). -/
theorem fetchStat_fits (icode : Icode) : (fetchStat icode).fitsBeforeMemory icode := by
  cases icode <;> simp [fetchStat, Stat.fitsBeforeMemory, Reference.notInstruction]

section
variable {s : State} {stat : Stat} {icode : Icode} (ifun rA rB : Nibble) (c : Word)

theorem fetchF1_inv (hstat : stat.fitsBeforeMemory icode) : (s.fetchF1 stat icode ifun).toD.Inv s.cfg :=
  ⟨hstat, fun _ => ⟨rfl, rfl⟩, fun _ => rfl, RegId.allowed_none _, RegId.allowed_none _⟩

theorem fetchF2_inv (hstat : Stat.aok.fitsBeforeMemory icode) (hr : Reference.needRegIds icode = true) :
    (s.fetchF2 icode ifun rA rB).toD.Inv s.cfg :=
  ⟨hstat, fun h => absurd (hr.symm.trans h) (by decide), fun _ => rfl, regOf_allowed _ _, regOf_allowed _ _⟩

theorem fetchF9_inv (hstat : Stat.aok.fitsBeforeMemory icode) (hc : Reference.needValC icode = true) :
    (s.fetchF9 icode ifun c).toD.Inv s.cfg :=
  ⟨hstat, fun _ => ⟨rfl, rfl⟩, fun h => absurd (hc.symm.trans h) (by decide), RegId.allowed_none _,
    RegId.allowed_none _⟩

theorem fetchF10_inv (hstat : Stat.aok.fitsBeforeMemory icode) (hr : Reference.needRegIds icode = true)
    (hc : Reference.needValC icode = true) : (s.fetchF10 icode ifun rA rB c).toD.Inv s.cfg :=
  ⟨hstat, fun h => absurd (hr.symm.trans h) (by decide), fun h => absurd (hc.symm.trans h) (by decide),
    regOf_allowed _ _, regOf_allowed _ _⟩

end

theorem packetOf_inv {i : Instr} (hi : i.wf = true) (s : State) : (packetOf i s).toD.Inv s.cfg := by
  have hstat : (packetOf i s).stat.fitsBeforeMemory (packetOf i s).icode := by
    rw [packetOf_stat hi s]
    exact fetchStat_fits _
  cases i with
  | halt | nop | ret | nonInstruction => exact fetchF1_inv _ hstat
  | rrmovq | cmovle | cmovl | cmove | cmovne | cmovge | cmovg | reservedCmov7 | reservedCmov8F
  | addq | subq | andq | xorq | reservedOp47 | reservedOp8F | pushq | popq =>
    exact fetchF2_inv _ _ _ hstat rfl
  | jmp | jle | jl | je | jne | jge | jg | reservedJump7 | reservedJump8F | call =>
    exact fetchF9_inv _ _ hstat rfl
  | irmovq | rmmovq | mrmovq => exact fetchF10_inv _ _ _ _ hstat rfl rfl

/-- Whatever is fetched, D holds what Fetch can stage. -/
theorem nextPacket_inv (s : State) : s.nextPacket.toD.Inv s.cfg := by
  rcases nextPacket_cases s with ⟨i, hi, h⟩ | h
  · rw [h]
    exact packetOf_inv hi s
  · rw [h]
    exact ⟨rfl, fun _ => ⟨rfl, rfl⟩, fun _ => rfl, RegId.allowed_none _, RegId.allowed_none _⟩

/-! ### Decode into E -/

section
variable {cfg : Config} (icode : Icode) {r : RegId}

/-- A register identifier by one of the role tables: the one named, RSP or RNONE. -/
theorem allowed_of_role {q : RegId} (hr : RegId.allowed cfg r) (h : q = r ∨ q = RSP ∨ q = none) :
    RegId.allowed cfg q := by
  rcases h with rfl | rfl | rfl
  · exact hr
  · exact RegId.allowed_RSP cfg
  · exact RegId.allowed_none cfg

theorem srcAOf_allowed (hr : RegId.allowed cfg r) : RegId.allowed cfg (srcAOf icode r) :=
  allowed_of_role hr (by cases icode <;> simp [srcAOf])

theorem srcBOf_allowed (hr : RegId.allowed cfg r) : RegId.allowed cfg (srcBOf icode r) :=
  allowed_of_role hr (by cases icode <;> simp [srcBOf])

theorem dstEOf_allowed (hr : RegId.allowed cfg r) : RegId.allowed cfg (dstEOf icode r) :=
  allowed_of_role hr (by cases icode <;> simp [dstEOf])

theorem dstMOf_allowed (hr : RegId.allowed cfg r) : RegId.allowed cfg (dstMOf icode r) :=
  allowed_of_role hr (by cases icode <;> simp [dstMOf])

/-- The role tables give the destinations an instruction can carry (41_decode.md R174). -/
theorem destinationsFit_decode (rA rB : RegId) : DestinationsFit icode (dstEOf icode rB) (dstMOf icode rA) := by
  cases icode <;> simp [DestinationsFit, dstEOf, dstMOf]

end

theorem nextE_inv {cfg : Config} {D : DReg} (hD : D.Inv cfg) (E : EReg) (M : MReg) (W : WReg) (cc : CC)
    (x : RegFile) : (nextE D E M W cc x).Inv cfg where
  stat := hD.stat
  dst := destinationsFit_decode D.icode D.rA D.rB
  dstE := dstEOf_allowed D.icode hD.rB
  dstM := dstMOf_allowed D.icode hD.rA
  srcA := srcAOf_allowed D.icode hD.rA
  srcB := srcBOf_allowed D.icode hD.rB

/-! ### Execute into M -/

section
variable (E : EReg) (cc : CC)

/-- e_dstE is the instruction's dstE, or RNONE in a conditional move. -/
theorem eDstE_cases : eDstE E cc = E.dstE ∨ (E.icode = .rrmovq ∧ eDstE E cc = none) := by
  by_cases hmove : E.icode = .rrmovq
  · cases hcnd : eCndOf E cc with
    | true => exact .inl (eDstE_of_eCndOf hcnd)
    | false => exact .inr ⟨hmove, eDstE_of_false_move hmove hcnd⟩
  · exact .inl (eDstE_of_ne_rrmovq cc hmove)

/-- e_Cnd is one its icode can carry (R209). -/
theorem cndFits_eCndOf : CndFits E.icode (eCndOf E cc) := by
  unfold eCndOf
  cases E.icode <;> simp [CndFits]

variable {E} in
/-- A move that lost its destination still carries destinations a move can carry. -/
theorem destinationsFit_execute (h : DestinationsFit E.icode E.dstE E.dstM) :
    DestinationsFit E.icode (eDstE E cc) E.dstM := by
  rcases eDstE_cases E cc with hkept | ⟨hmove, -⟩
  · rwa [hkept]
  · rw [hmove] at h ⊢
    exact h

end

theorem nextM_inv {cfg : Config} {E : EReg} (hE : E.Inv cfg) (cc : CC) : (nextM E cc).Inv cfg where
  stat := hE.stat
  dst := destinationsFit_execute cc hE.dst
  cnd := cndFits_eCndOf E cc
  nullified := eDstE_of_false_move
  dstE := by
    rcases eDstE_cases E cc with hkept | ⟨-, hlost⟩
    · rw [nextM_dstE, hkept]
      exact hE.dstE
    · rw [nextM_dstE, hlost]
      exact RegId.allowed_none cfg
  dstM := hE.dstM

/-! ### Memory into W -/

/-- Only an icode that accesses memory can make an access that fails. -/
theorem accessOk_of_accessesMemory {M : MReg} (cfg : Config) (h : accessesMemory M.icode = false) :
    accessOk cfg (accessOf M) = true := by
  rw [accessOf_eq_none]
  · rfl
  · revert h
    cases M.icode <;> decide

/-- Only an icode that reads memory loads a word. -/
theorem mValM_of_readsMemory {M : MReg} (cfg : Config) (mem : Memory) (h : readsMemory M.icode = false) :
    mValM cfg mem (accessOf M) = 0 := by
  unfold accessOf
  cases hM : M.icode with
  | mrmovq | popq | ret => simp [hM, readsMemory] at h
  | _ => rfl

/-- Memory leaves a status an instruction can have in W: its own, or ADR where it accesses memory. -/
theorem escalate_fitsInW {M : MReg} (cfg : Config) (h : M.stat.fitsBeforeMemory M.icode) :
    (M.stat.escalate (accessOk cfg (accessOf M))).fitsInW M.icode := by
  cases hok : accessOk cfg (accessOf M) with
  | true => exact .inl h
  | false =>
    refine .inr ⟨rfl, ?_⟩
    by_contra hno
    rw [accessOk_of_accessesMemory cfg (by simpa using hno)] at hok
    cases hok

theorem nextW_inv {cfg : Config} {M : MReg} (hM : M.Inv cfg) (mem : Memory) : (nextW cfg M mem).Inv cfg where
  stat := escalate_fitsInW cfg hM.stat
  dst := hM.dst
  valM := mValM_of_readsMemory cfg mem
  dstE := hM.dstE
  dstM := hM.dstM

/-! ### The tick -/

/-- A tick that stages what Fetch can stage keeps the invariant. -/
theorem tick_inv {s : State} (hs : s.Inv) (hrun : s.running = true) {f : Fetched} (hf : f.toD.Inv s.cfg) :
    (s.tick f).Inv where
  cfg := hs.cfg
  memWf := nextMem_wf hs.memWf _
  memWithin := nextMem_within hs.memWithin _
  D := hf
  E := nextE_inv hs.D s.E s.M s.W s.cc s.x
  M := nextM_inv hs.E s.cc
  W := nextW_inv hs.M s.mem
  final := by
    have hnone : s.finalStat.isSome = false := by rw [hs.final, hrun]; rfl
    rw [State.tick_finalStat, State.tick_running]
    cases stopsRun s.cfg.stopPolicy s.W with
    | true => rfl
    | false => exact hnone

/-- Settles O36: a step is the tick of a packet that Fetch can stage. -/
theorem everyStepKeepsInvariant : Obligations.EveryStepKeepsInvariant := by
  intro s t hs hstep
  obtain ⟨hrun, rfl⟩ := step_next_iff.1 hstep
  exact tick_inv hs hrun (nextPacket_inv s)

/-! ### Reset -/

/-- Bubbles are what every stage can stage. -/
theorem resetWith_inv {cfg : Config} (rf : RegFile) (cc : CC) {m : Memory} (hcfg : cfg.wf) (hm : m.wf)
    (hwithin : m.within cfg.memSize) : (State.resetWith cfg rf cc m).Inv where
  cfg := hcfg
  memWf := hm
  memWithin := hwithin
  D := ⟨⟨Icode.noConfusion, rfl⟩, fun _ => ⟨rfl, rfl⟩, fun _ => rfl, RegId.allowed_none _,
    RegId.allowed_none _⟩
  E := ⟨⟨Icode.noConfusion, rfl⟩, ⟨rfl, rfl⟩, RegId.allowed_none _, RegId.allowed_none _,
    RegId.allowed_none _, RegId.allowed_none _⟩
  M := ⟨⟨Icode.noConfusion, rfl⟩, ⟨rfl, rfl⟩, rfl, fun _ _ => rfl, RegId.allowed_none _,
    RegId.allowed_none _⟩
  W := ⟨.inl ⟨Icode.noConfusion, rfl⟩, ⟨rfl, rfl⟩, fun _ => rfl, RegId.allowed_none _,
    RegId.allowed_none _⟩
  final := rfl

/-- Settles O35: the default parameters and the empty memory are legal. -/
theorem invariantAfterReset : Obligations.InvariantAfterReset :=
  ⟨resetWith_inv _ _ (by decide) reset_mem_wf (by simp), fun _ rf cc _ => resetWith_inv rf cc⟩

/-- Settles O33: each field of the reset state is what its definition writes. -/
theorem resetState : Obligations.ResetState :=
  ⟨fun _ _ _ _ => ⟨rfl, rfl, rfl, rfl, rfl, rfl, rfl, rfl, rfl, rfl, rfl⟩, rfl⟩

/-! ### What the invariant excludes -/

/-- An instruction whose status is not AOK before Memory is a HALT or a non-instruction. -/
theorem errored_icode {stat : Stat} {icode : Icode} (h : stat.fitsBeforeMemory icode) (herror : stat ≠ .aok) :
    icode = .halt ∨ Reference.notInstruction icode = true := by
  cases stat with
  | aok => exact absurd rfl herror
  | hlt | adr => exact .inl h
  | ins => exact .inr h

/-- Settles O37: neither a HALT nor a non-instruction makes an access. -/
theorem erroredInstructionNeverAccessesMemory : Obligations.ErroredInstructionNeverAccessesMemory := by
  intro s hs hrun herror
  have hicode := errored_icode hs.M.stat herror
  have haccess : accessOf s.M = .none := accessOf_eq_none (by
    revert hicode
    cases s.M.icode <;> decide)
  exact ⟨_, step_next_iff.2 ⟨hrun, rfl⟩, by simp [haccess, accessOk, Stat.escalate]⟩

/-- Settles O38: a tick copies the parameters, and in a W that the invariant allows no destination is register 15. -/
theorem parametersFixedAndRegister15Unnamed : Obligations.ParametersFixedAndRegister15Unnamed := by
  intro s t hstep
  obtain ⟨-, rfl⟩ := step_next_iff.1 hstep
  exact ⟨rfl, fun hs hnone => nextX_other s.x (hs.W.dstE hnone) (hs.W.dstM hnone)⟩

end Sys2Proof.Proofs

/-! PROOFS. The machine's step against the spec's own restatement of it (43_memory_writeback.md R257), stage by stage:
Fetch format by format, then Decode, Execute, Memory and Writeback. -/

namespace Sys2Proof.Proofs

open Sys2Proof Sys2Proof.Machine

/-! ### Fetch (40_fetch.md R152) -/

/-- The restated fetch once the opcode byte is read: its operand bytes, status, fallthrough and prediction. -/
def fetchOperands (cfg : Config) (mem : Memory) (pc : Word) (icode : Icode) (ifun : Nibble) : Fetched :=
  match Reference.fetchRegs cfg mem (Reference.needRegIds icode) (pc + 1) with
  | none => .addressError
  | some (rA, rB) =>
    match Reference.fetchConst cfg mem (Reference.needValC icode)
      (pc + 1 + if Reference.needRegIds icode then 1 else 0) with
    | none => .addressError
    | some valC =>
      ⟨fetchStat icode, icode, ifun, rA, rB, valC, fallthroughAt pc icode,
        predictedPC icode valC (fallthroughAt pc icode)⟩

section
variable {s : State}

theorem reference_fetch_of_none (hb : getByte s.cfg s.mem s.fetchPC = none) :
    Reference.fetch s.cfg s.F s.M s.W s.mem = .addressError := by
  unfold State.fetchPC selectPC at hb
  simp only [Reference.fetch, hb]

theorem reference_fetch_of_byte {b : Byte} (hb : getByte s.cfg s.mem s.fetchPC = some b) :
    Reference.fetch s.cfg s.F s.M s.W s.mem =
      fetchOperands s.cfg s.mem s.fetchPC (.ofNibble (hiNibble b)) (loNibble b) := by
  have height : ∀ needed : Bool, (8 : Word) * (if needed then 1 else 0) = if needed then 8 else 0 := by decide
  unfold State.fetchPC selectPC at hb ⊢
  simp only [Reference.fetch, hb, height]
  rfl

end

/-- The packet of the instruction a decoder answers, or of a failed fetch. -/
def packetOfDecoded (d : Decoded) (s : State) : Fetched :=
  match d with
  | .ok (i, _) => packetOf i s
  | .error _ => .addressError

theorem nextPacket_eq_packetOfDecoded (s : State) : s.nextPacket = packetOfDecoded (decode s.fetchWindow) s := by
  unfold State.nextPacket packetOfDecoded
  rfl

/-! Each format's operand readers, on what can be read behind the opcode byte, are the restated reads. -/

section
variable {s : State} {c : Icode} {f : Nibble}

/-- Format F1 reads no operand byte. -/
theorem fetchF1_eq_fetchOperands {stat : Stat} (hstat : fetchStat c = stat)
    (hreg : Reference.needRegIds c = false) (hconst : Reference.needValC c = false)
    (hpred : ∀ valC valP, predictedPC c valC valP = valP) :
    s.fetchF1 stat c f = fetchOperands s.cfg s.mem s.fetchPC c f := by
  simp only [fetchOperands, hreg, hconst, Reference.fetchRegs, Reference.fetchConst, Bool.false_eq_true, if_false,
    hpred, hstat, ← fetchF1_valP s stat f hreg hconst]
  rfl

/-- Format F2 reads the register byte. -/
theorem decodeF2_eq_fetchOperands {mk : Nibble → Nibble → Instr}
    (hmk : ∀ rA rB, packetOf (mk rA rB) s = s.fetchF2 c f rA rB) (hstat : fetchStat c = .aok)
    (hreg : Reference.needRegIds c = true) (hconst : Reference.needValC c = false)
    (hpred : ∀ valC valP, predictedPC c valC valP = valP) :
    packetOfDecoded (decodeF2 mk (readWhileInRange s.cfg s.mem (s.fetchPC + 1) 9)) s =
      fetchOperands s.cfg s.mem s.fetchPC c f := by
  rw [decodeF2_window]
  simp only [fetchOperands, hreg, hconst, Reference.fetchRegs, Reference.fetchConst, Bool.false_eq_true, if_false,
    if_true, hpred, hstat]
  cases getByte s.cfg s.mem (s.fetchPC + 1) with
  | none => rfl
  | some b =>
    have hvalP := fetchF2_valP s f (hiNibble b) (loNibble b) hreg hconst
    exact (hmk _ _).trans (by simp only [Option.map_some, ← hvalP]; rfl)

/-- Format F9 reads the constant. -/
theorem decodeF9_eq_fetchOperands {mk : Word → Instr}
    (hmk : ∀ v, packetOf (mk v) s = s.fetchF9 c f v) (hstat : fetchStat c = .aok)
    (hreg : Reference.needRegIds c = false) (hconst : Reference.needValC c = true)
    (hpred : ∀ valC valP, predictedPC c valC valP = valC) :
    packetOfDecoded (decodeF9 mk (readWhileInRange s.cfg s.mem (s.fetchPC + 1) 9)) s =
      fetchOperands s.cfg s.mem s.fetchPC c f := by
  rw [decodeF9, withConstant_window]
  simp only [fetchOperands, hreg, hconst, Reference.fetchRegs, Bool.false_eq_true, if_false, hpred, hstat,
    add_zero]
  cases Reference.fetchConst s.cfg s.mem true (s.fetchPC + 1) with
  | none => rfl
  | some v => exact (hmk v).trans (by simp only [← fetchF9_valP s f v hreg hconst]; rfl)

/-- Format F10 reads the register byte and the constant behind it. -/
theorem decodeF10_eq_fetchOperands {mk : Nibble → Nibble → Word → Instr}
    (hmk : ∀ rA rB v, packetOf (mk rA rB v) s = s.fetchF10 c f rA rB v) (hstat : fetchStat c = .aok)
    (hreg : Reference.needRegIds c = true) (hconst : Reference.needValC c = true)
    (hpred : ∀ valC valP, predictedPC c valC valP = valP) :
    packetOfDecoded (decodeF10 mk (readWhileInRange s.cfg s.mem (s.fetchPC + 1) 9)) s =
      fetchOperands s.cfg s.mem s.fetchPC c f := by
  rw [readWhileInRange_succ]
  simp only [fetchOperands, hreg, hconst, Reference.fetchRegs, if_true, hpred, hstat]
  cases getByte s.cfg s.mem (s.fetchPC + 1) with
  | none => rfl
  | some b =>
    simp only [decodeF10, withRegisterByte, withConstant_window, Option.map_some]
    cases Reference.fetchConst s.cfg s.mem true (s.fetchPC + 1 + 1) with
    | none => rfl
    | some v =>
      have hvalP := fetchF10_valP s f (hiNibble b) (loNibble b) v hreg hconst
      exact (hmk _ _ v).trans (by simp only [← hvalP]; rfl)

/-- The next packet, once the opcode byte is read, icode by icode. -/
theorem nextPacket_of_byte {b : Byte} (hb : getByte s.cfg s.mem s.fetchPC = some b) :
    s.nextPacket = fetchOperands s.cfg s.mem s.fetchPC (.ofNibble (hiNibble b)) (loNibble b) := by
  rw [nextPacket_eq_packetOfDecoded, State.fetchWindow, maxLength, readWhileInRange_succ, hb]
  cases hc : Icode.ofNibble (hiNibble b) with
  | halt | nop | ret =>
    simp only [decode, hc]
    exact fetchF1_eq_fetchOperands rfl rfl rfl fun _ _ => rfl
  | codeC | codeD | codeE | codeF =>
    simp only [decode, hc]
    change s.fetchF1 .ins (.ofNibble (hiNibble b)) (loNibble b) = _
    rw [hc]
    exact fetchF1_eq_fetchOperands rfl rfl rfl fun _ _ => rfl
  | rrmovq =>
    simp only [decode, hc]
    exact decodeF2_eq_fetchOperands (fun rA rB => packetOf_moveOfIfun _ rA rB s) rfl rfl rfl fun _ _ => rfl
  | opq =>
    simp only [decode, hc]
    exact decodeF2_eq_fetchOperands (fun rA rB => packetOf_opOfIfun _ rA rB s) rfl rfl rfl fun _ _ => rfl
  | pushq | popq =>
    simp only [decode, hc]
    exact decodeF2_eq_fetchOperands (fun _ _ => rfl) rfl rfl rfl fun _ _ => rfl
  | jxx =>
    simp only [decode, hc]
    exact decodeF9_eq_fetchOperands (fun v => packetOf_jumpOfIfun _ v s) rfl rfl rfl fun _ _ => rfl
  | call =>
    simp only [decode, hc]
    exact decodeF9_eq_fetchOperands (fun _ => rfl) rfl rfl rfl fun _ _ => rfl
  | irmovq | rmmovq | mrmovq =>
    simp only [decode, hc]
    exact decodeF10_eq_fetchOperands (fun _ _ _ => rfl) rfl rfl rfl fun _ _ => rfl

theorem nextPacket_of_no_byte (hb : getByte s.cfg s.mem s.fetchPC = none) : s.nextPacket = .addressError := by
  refine nextPacket_of_error (e := .noOpcodeByte) ?_
  rw [State.fetchWindow, maxLength, readWhileInRange_succ, hb]
  rfl

/-- The machine's fetch is the restated one. -/
theorem nextPacket_eq_reference (s : State) : s.nextPacket = Reference.fetch s.cfg s.F s.M s.W s.mem := by
  cases hb : getByte s.cfg s.mem s.fetchPC with
  | none => rw [nextPacket_of_no_byte hb, reference_fetch_of_none hb]
  | some b => rw [nextPacket_of_byte hb, reference_fetch_of_byte hb]

end

/-! ### Execute (42_execute.md R213) -/

/-- The machine's Execute is the restated one, icode by icode. -/
theorem reference_execute (E : EReg) (cc : CC) :
    Reference.execute E cc = ⟨eValE E, eDstE E cc, nextCC E cc, nextM E cc⟩ := by
  obtain ⟨stat, icode, ifun, valC, valA, valB, dstE, dstM, srcA, srcB⟩ := E
  cases icode <;> rfl

/-! ### Decode (41_decode.md R188) -/

/-- The restated forwarding is the machine's. -/
theorem reference_forwarded (r eDstE : RegId) (eValE : Word) (M : MReg) (W : WReg) (x : RegFile) :
    Reference.forwarded r eDstE eValE M W x = forward r eDstE eValE M W x := by
  cases r with
  | none => rfl
  | some i => rw [forward_some]; rfl

/-- The machine's Decode is the restated one, icode by icode. -/
theorem reference_decode (D : DReg) (E : EReg) (M : MReg) (W : WReg) (cc : CC) (x : RegFile) :
    Reference.decode D (eDstE E cc) (eValE E) M W x = nextE D E M W cc x := by
  obtain ⟨stat, icode, ifun, rA, rB, valC, valP⟩ := D
  simp only [Reference.decode, reference_forwarded]
  cases icode <;> rfl

/-! ### Memory (43_memory_writeback.md R238) -/

section
variable (cfg : Config) (M : MReg) (mem : Memory)

/-- The restated Memory stages what the machine's does, icode by icode, in range and out of range. -/
theorem reference_memory_W : (Reference.memory cfg M mem).W = nextW cfg M mem := by
  obtain ⟨stat, icode, Cnd, valE, valA, dstE, dstM⟩ := M
  cases icode with
  | mrmovq | rmmovq | pushq | call =>
    cases hin : inRange cfg valE 8 <;>
      simp [Reference.memory, nextW, accessOf, accessOk, mValM, getLong, Stat.escalate, hin]
  | popq | ret =>
    cases hin : inRange cfg valA 8 <;>
      simp [Reference.memory, nextW, accessOf, accessOk, mValM, getLong, Stat.escalate, hin]
  | halt | nop | rrmovq | irmovq | opq | jxx | codeC | codeD | codeE | codeF => rfl

/-- The restated Memory asks for the store that the machine makes, or for none when it makes none. -/
theorem reference_memory_store :
    (∃ a v, (Reference.memory cfg M mem).store = some (a, v) ∧
        nextMem cfg mem (accessOf M) = mem.setBytes a.toNat (bytesOfWord v)) ∨
      ((Reference.memory cfg M mem).store = none ∧ nextMem cfg mem (accessOf M) = mem) := by
  obtain ⟨stat, icode, Cnd, valE, valA, dstE, dstM⟩ := M
  cases icode with
  | rmmovq | pushq | call =>
    cases hin : inRange cfg valE 8 with
    | true =>
      exact .inl ⟨valE, valA, by simp [Reference.memory, hin],
        by simp [accessOf, nextMem, putLong, Memory.setWord, hin]⟩
    | false =>
      exact .inr ⟨by simp [Reference.memory, hin], by simp [accessOf, nextMem, putLong, hin]⟩
  | _ => exact .inr ⟨rfl, rfl⟩

end

/-! ### Writeback and the stop (43_memory_writeback.md R249, R257) -/

/-- The restated stop condition is the machine's. -/
theorem reference_stop (policy : StopPolicy) (W : WReg) :
    (W.icode == .halt || (policy == .anyNonAok && (W.stat == .adr || W.stat == .ins))) =
      stopsRun policy W := by
  cases policy <;> simp [stopsRun, WReg.done, Bool.or_assoc]

/-- Settles O14: the restated step is the tick of the restated fetch, register by register. -/
theorem stepIsTheRestatedFunction : Obligations.StepIsTheRestatedFunction := by
  intro s hrun
  rw [step_eq_clock, clock_of_running hrun, nextPacket_eq_reference]
  congr 1
  simp only [Reference.step, reference_execute, reference_decode, reference_memory_W, reference_stop]
  unfold State.tick
  congr 1
  rcases reference_memory_store s.cfg s.M s.mem with ⟨a, v, hstore, hmem⟩ | ⟨hstore, hmem⟩
  · rw [hstore, hmem]
  · rw [hstore, hmem]

end Sys2Proof.Proofs

/-! PROOFS. Statements about one tick: the role tables and what Decode does not see (41_decode.md), Execute's result,
flags and condition (42_execute.md), Memory's accesses, Writeback and the stop (43_memory_writeback.md). -/

namespace Sys2Proof.Proofs

open Sys2Proof Sys2Proof.Machine Sys2Proof.Claims

/-! ### Decode -/

section
variable (icode : Icode) (r : RegId)

/-- d_srcB by icode (R171). -/
theorem srcBOf_table :
    (icode ∈ [Icode.opq, .rmmovq, .mrmovq] → srcBOf icode r = r) ∧
    (icode ∈ [Icode.pushq, .popq, .call, .ret] → srcBOf icode r = RSP) ∧
    (icode ∉ [Icode.opq, .rmmovq, .mrmovq, .pushq, .popq, .call, .ret] → srcBOf icode r = none) := by
  cases icode <;> simp [srcBOf]

/-- d_dstE by icode (R172). -/
theorem dstEOf_table :
    (icode ∈ [Icode.rrmovq, .irmovq, .opq] → dstEOf icode r = r) ∧
    (icode ∈ [Icode.pushq, .popq, .call, .ret] → dstEOf icode r = RSP) ∧
    (icode ∉ [Icode.rrmovq, .irmovq, .opq, .pushq, .popq, .call, .ret] → dstEOf icode r = none) := by
  cases icode <;> simp [dstEOf]

/-- d_dstM by icode (R173). -/
theorem dstMOf_table :
    (icode ∈ [Icode.mrmovq, .popq] → dstMOf icode r = r) ∧
    (icode ∉ [Icode.mrmovq, .popq] → dstMOf icode r = none) := by
  cases icode <;> simp [dstMOf]

end

/-- Settles O17: the E staged by a tick holds the identifiers of the three tables. -/
theorem otherRoleTables : Obligations.OtherRoleTables := by
  intro s hrun
  obtain ⟨srcBNamed, srcBStack, srcBNone⟩ := srcBOf_table s.D.icode s.D.rB
  obtain ⟨dstENamed, dstEStack, dstENone⟩ := dstEOf_table s.D.icode s.D.rB
  obtain ⟨dstMNamed, dstMNone⟩ := dstMOf_table s.D.icode s.D.rA
  exact ⟨_, step_next_iff.2 ⟨hrun, rfl⟩, srcBNamed, fun h => ⟨srcBStack h, dstEStack h⟩, srcBNone, dstENamed,
    dstENone, dstMNamed, dstMNone⟩

/-- Settles O19: d_valA of a CALL or a JXX is valP. -/
theorem callAndJumpCarryFallthrough : Obligations.CallAndJumpCarryFallthrough := by
  intro s hrun hcallOrJump
  refine ⟨_, step_next_iff.2 ⟨hrun, rfl⟩, ?_⟩
  rw [State.tick_E, nextE_valA, dValA, if_pos (by simpa using hcallOrJump)]

/-- Decode stages the same for a state that has lost what its loads carry: it reads neither dstM, nor valM, nor
memory. -/
theorem tick_E_forgetLoads (s : State) (f g : Fetched) : ((forgetLoads s).tick g).E = (s.tick f).E := rfl

/-- Settles O20: both states stage what their common state without loads stages. -/
theorem loadsAreNotForwarded : Obligations.LoadsAreNotForwarded := by
  intro s s' hrun hforget
  have hrun' : s'.running = true := by
    change (forgetLoads s').running = true
    rw [← hforget]
    exact hrun
  refine ⟨_, _, step_next_iff.2 ⟨hrun, rfl⟩, step_next_iff.2 ⟨hrun', rfl⟩, ?_⟩
  rw [← tick_E_forgetLoads s _ .addressError, hforget, tick_E_forgetLoads s']

/-- Settles O21: after the tick the destinations hold what Writeback wrote, and what the tick's Decode resolved has the
forwarding priority, whose last two cases are W and the register file before the writes. -/
theorem decodeReadsBeforeWriteback : Obligations.DecodeReadsBeforeWriteback := by
  intro s hrun hhalt
  obtain ⟨t, ht, hpriority⟩ := forwardingPriority s hrun
  refine ⟨t, ht, ?valM, ?valE, fun r v n hv hr hE hM => ?decode⟩
  case decode =>
    obtain ⟨-, -, fromW, fromFile⟩ := (hpriority r v hv).2 n hr
    exact ⟨fromW hE hM, fromFile hE hM⟩
  all_goals obtain ⟨-, rfl⟩ := step_next_iff.1 ht
  case valM => exact fun n hM => nextX_dstM s.x hhalt hM
  case valE => exact fun n hE hM => nextX_dstE s.x hhalt hE hM

/-! ### Execute -/

section
variable {E : EReg}

/-- An OPQ gives the operator its ifun selects, on valA and valB. -/
theorem eValE_of_opq (hopq : E.icode = .opq) : eValE E = alu (.ofIfun E.ifun) E.valA E.valB := by
  simp [eValE, aluFunOf, aluAOf, aluBOf, hopq]

/-- The icodes the source lists no operand for give 0 (D35). -/
theorem eValE_of_no_operand (h : E.icode ∈ [Icode.halt, .nop, .jxx, .codeC, .codeD, .codeE, .codeF]) :
    eValE E = 0 := by
  rw [eValE_of_ne_opq fun hopq => by simp [hopq] at h]
  revert h
  unfold aluAOf aluBOf
  cases E.icode <;> simp

theorem nextCC_of_opq (hopq : E.icode = .opq) (cc : CC) :
    nextCC E cc = flagsOf (.ofIfun E.ifun) E.valA E.valB (eValE E) := by
  simp [nextCC, aluFunOf, aluAOf, aluBOf, hopq]

end

/-- Settles O22: the ALU's operands and its operator, icode by icode. -/
theorem executeResult : Obligations.ExecuteResult := by
  intro s hrun
  refine ⟨_, step_next_iff.2 ⟨hrun, rfl⟩, fun h => ?rrmovq, fun h => ?irmovq, fun h => ?address, fun h => ?push,
    fun h => ?pop, fun h f => ?add, fun h f => ?sub, fun h f => ?and, fun h f => ?xor, fun h f => ?reserved,
    fun h => ?none⟩
  all_goals rw [State.tick_M, nextM_valE]
  case rrmovq | irmovq => simp [eValE_of_ne_opq, aluAOf, aluBOf, h]
  case address | pop =>
    rcases List.mem_pair.1 h with h | h <;> simp [eValE_of_ne_opq, aluAOf, aluBOf, h, BitVec.add_comm]
  case push =>
    rw [← neg8_add]
    rcases List.mem_pair.1 h with h | h <;> simp [eValE_of_ne_opq, aluAOf, aluBOf, h]
  case add | sub | and | xor =>
    simp [eValE_of_opq h, f, AluFun.ofIfun, alu, BitVec.add_comm, BitVec.and_comm, BitVec.xor_comm]
  case reserved => rw [eValE_of_opq h, aluFun_reserved f]; rfl
  case none => exact eValE_of_no_operand h

/-- The model's overflow of an addition is that the exact sum does not fit (R205, C4). -/
theorem overflow_add_iff (a b : Word) : overflow .add a b (a + b) = true ↔ Overflows (b.toInt + a.toInt) := by
  have h : overflow .add a b (a + b) = a.saddOverflow b := (BitVec.saddOverflow_eq a b).symm
  rw [h, BitVec.saddOverflow, Bool.or_eq_true, decide_eq_true_eq, decide_eq_true_eq, Int.add_comm, Overflows,
    or_comm]

/-- The model's overflow of a subtraction is that the exact difference does not fit (R205, C4). -/
theorem overflow_sub_iff (a b : Word) : overflow .sub a b (b - a) = true ↔ Overflows (b.toInt - a.toInt) := by
  have h : overflow .sub a b (b - a) = b.ssubOverflow a := by
    rw [BitVec.ssubOverflow_eq, overflow]
    cases a.msb <;> cases b.msb <;> cases (b - a).msb <;> rfl
  rw [h, BitVec.ssubOverflow, Bool.or_eq_true, decide_eq_true_eq, decide_eq_true_eq, Overflows, or_comm]

/-- The operators with a selector 2 or more never overflow (D16). -/
theorem overflow_of_logical {f : Nibble} (hf : 2 ≤ f.toNat) (a b r : Word) :
    overflow (.ofIfun f) a b r = false := by
  have hall : ∀ f : Nibble, 2 ≤ f.toNat →
      AluFun.ofIfun f = .and ∨ AluFun.ofIfun f = .xor ∨ AluFun.ofIfun f = .unknown := by decide
  rcases hall f hf with h | h | h <;> rw [h] <;> rfl

/-- Settles O23: the flags of an OPQ are those of its result and of its operator's overflow. -/
theorem flagsFromOperation : Obligations.FlagsFromOperation := by
  intro s hrun
  refine ⟨_, step_next_iff.2 ⟨hrun, rfl⟩, nextCC_of_ne_opq s.cc, fun hopq => ?_⟩
  rw [State.tick_cc, State.tick_M, nextM_valE, nextCC_of_opq hopq]
  refine ⟨beq_iff_eq, ?sign, fun hf => ?add, fun hf => ?sub, fun hf => overflow_of_logical hf _ _ _⟩
  case sign => exact (Bool.eq_iff_iff.1 (BitVec.msb_eq_toInt (x := eValE s.E))).trans decide_eq_true_iff
  case add => rw [eValE_of_opq hopq, hf]; exact overflow_add_iff _ _
  case sub => rw [eValE_of_opq hopq, hf]; exact overflow_sub_iff _ _

/-- The entry of a selector in the table of conditions is the condition it selects (R208). -/
theorem conditionTable_get (f : Nibble) (cc : CC) : (conditionTable cc)[f.toNat]? = some (condition f cc) := by
  have hall : ∀ (f : Nibble) (z sf o : Bool),
      (conditionTable ⟨z, sf, o⟩)[f.toNat]? = some (condition f ⟨z, sf, o⟩) := by decide
  exact hall f cc.ZF cc.SF cc.OF

/-- Settles O24: each selector's entry in the table of conditions is the condition Execute evaluates. -/
theorem conditionFromFlags : Obligations.ConditionFromFlags := by
  intro s hrun
  refine ⟨_, step_next_iff.2 ⟨hrun, rfl⟩, fun h => ?condition, fun h => ?never, fun h => ?always⟩
  all_goals rw [State.tick_M, nextM_Cnd]
  case condition =>
    rw [conditionTable_get]
    rcases h with h | h <;> simp [eCndOf, h]
  case never => rcases h with h | h <;> simp [eCndOf, h]
  case always =>
    simp only [List.mem_cons, List.not_mem_nil, or_false, not_or] at h
    obtain ⟨hmove, hjump, hnop, hhalt⟩ := h
    rw [eCndOf_of_unconditional _ hmove hjump]
    simp [hnop, hhalt]

/-- Settles O41: no stage reads the two identifiers, so the tick is the same. -/
theorem sourceIdsInExecuteReadByNothing : Obligations.SourceIdsInExecuteReadByNothing := by
  intro s a b
  rw [step_eq_clock, step_eq_clock, nextPacket_with_E s { s.E with srcA := a, srcB := b }]
  rfl

/-! ### Memory -/

/-- A reader's address: valE for MRMOVQ, valA for POPQ and RET (R230). -/
theorem accessOf_reader {M : MReg} (h : M.icode ∈ [Icode.mrmovq, .popq, .ret]) :
    accessOf M = .read (if M.icode = .mrmovq then M.valE else M.valA) := by
  revert h
  unfold accessOf
  cases M.icode <;> simp

/-- The status an access leaves, in the words of the claims (R234). -/
theorem escalate_inRange (cfg : Config) (a : Word) (st : Stat) :
    (InRange8 cfg a → st.escalate (inRange cfg a 8) = st) ∧
      (¬InRange8 cfg a → st.escalate (inRange cfg a 8) = .adr) :=
  ⟨fun h => by simp [inRange_eight_iff.2 h, Stat.escalate],
    fun h => by simp [mt inRange_eight_iff.1 h, Stat.escalate]⟩

/-- Settles O26: a reader's access is a read at its address. -/
theorem loadReadsWord : Obligations.LoadReadsWord := by
  intro s hrun hreader
  refine ⟨_, step_next_iff.2 ⟨hrun, rfl⟩, ?_⟩
  rw [State.tick_mem, State.tick_W, nextW_valM, nextW_stat, accessOf_reader hreader]
  exact ⟨rfl, loaded_getLong _ _ _, escalate_inRange _ _ _⟩

/-- Settles O27: a writer's access is a write of valA at valE. -/
theorem storeWritesWord : Obligations.StoreWritesWord := by
  intro s hrun hm hwriter
  refine ⟨_, step_next_iff.2 ⟨hrun, rfl⟩, ?_⟩
  rw [State.tick_mem, State.tick_W, nextW_valM, nextW_stat, accessOf_eq_write hwriter]
  exact ⟨stored_putLong _ _ _ hm, rfl, escalate_inRange _ _ _⟩

/-- A word stored in range is read back (20_memory.md R81). -/
theorem getLong_putLong {cfg : Config} {m : Memory} (hm : m.wf) {a : Word} (v : Word) (h : InRange8 cfg a) :
    getLong cfg (putLong cfg m a v) a = some v := by
  simp [getLong, putLong, inRange_eight_iff.2 h, Memory.getWord_setWord hm]

/-- Settles O29: the memory after the store's tick is what the load behind it reads, at the same address. -/
theorem loadAfterStoreReadsStored : Obligations.LoadAfterStoreReadsStored := by
  intro s hrun hm hwriter hrange hload haddr
  refine ⟨_, step_next_iff.2 ⟨hrun, rfl⟩, next_of_tick ?_⟩
  have hvalE : eValE s.E = s.M.valE := by
    rw [← haddr, eValE_of_ne_opq (by simp [hload]), BitVec.add_comm]
    simp [aluAOf, aluBOf, hload]
  have haccess : accessOf (nextM s.E s.cc) = .read s.M.valE := by simp [accessOf, hload, hvalE]
  rw [State.tick_W, nextW_valM, State.tick_M, haccess, State.tick_mem, accessOf_eq_write hwriter, mValM, nextMem,
    State.tick_cfg, getLong_putLong hm _ hrange]
  rfl

/-! ### Writeback -/

/-- Settles O30: what Writeback leaves in a destination and in any other register. -/
theorem writebackWritesDestinations : Obligations.WritebackWritesDestinations := by
  intro s hrun
  refine ⟨_, step_next_iff.2 ⟨hrun, rfl⟩, fun hhalt => ?halt, fun hhalt n => ?writes, fun hs hhalt => ?invariant⟩
  case halt => rw [State.tick_x, nextX_eq, if_pos hhalt]
  case writes =>
    exact ⟨fun hE hM => nextX_dstE s.x hhalt hE hM, fun hM _ => nextX_dstM s.x hhalt hM,
      fun hE hM => nextX_other s.x hE hM⟩
  case invariant =>
    have hdst := hs.W.dst
    rw [hhalt] at hdst
    exact hdst

/-- The destinations an instruction can carry coincide only in the popq of RSP (R250, C6). -/
theorem popq_of_both_destinations {icode : Icode} {n : Fin 16}
    (h : DestinationsFit icode (some n) (some n)) : icode = .popq ∧ n = 4 := by
  revert h
  cases icode <;> simp [DestinationsFit, RSP]

/-- Settles O31: the register is RSP of a popq, and the dstM write comes last. -/
theorem popToStackPointerKeepsLoadedWord : Obligations.PopToStackPointerKeepsLoadedWord := by
  intro s n hs hrun hE hM
  have hdst := hs.W.dst
  rw [hE, hM] at hdst
  obtain ⟨hpopq, hn⟩ := popq_of_both_destinations hdst
  refine ⟨hpopq, hn, _, step_next_iff.2 ⟨hrun, rfl⟩, nextX_dstM s.x (by simp [hpopq]) hM, fun k hk => ?_⟩
  have hother : some n ≠ some k := fun h => hk (Option.some.inj h).symm
  exact nextX_other s.x (hE ▸ hother) (hM ▸ hother)

/-! ### The stop -/

/-- A HALT in W redirects no fetch, as a nop there does not. -/
theorem nextPacket_with_nop {s : State} (hhalt : s.W.icode = .halt) :
    State.nextPacket { s with W := { s.W with icode := .nop } } = s.nextPacket := by
  simp [nextPacket_eq_reference, Reference.fetch, hhalt]

/-- The stop policy has no part in Fetch. -/
theorem nextPacket_with_policy (s : State) (policy : StopPolicy) :
    State.nextPacket { s with cfg := { s.cfg with stopPolicy := policy } } = s.nextPacket := by
  rw [nextPacket_eq_reference, nextPacket_eq_reference]
  rfl

/-- A HALT without destinations writes what a nop without destinations writes: nothing. -/
theorem nextX_with_nop {W : WReg} (hhalt : W.icode = .halt) (hE : W.dstE = none) (hM : W.dstM = none)
    (x : RegFile) : nextX { W with icode := .nop } x = nextX W x := by
  simp [nextX, hhalt, hE, hM]

/-- Settles O32: the stop condition in words; W's HALT and the policy are read by nothing else in the tick. -/
theorem stopConditionAndFinalStatus : Obligations.StopConditionAndFinalStatus := by
  intro s hrun
  refine ⟨_, step_next_iff.2 ⟨hrun, rfl⟩, ?stops, fun h => ?final, fun h => ?kept, fun hhalt hE hM => ?nop, ?policy⟩
  case stops => rw [State.tick_running, Bool.not_eq_false', stopsRun_iff]
  case final =>
    rw [State.tick_running, Bool.not_eq_false'] at h
    rw [State.tick_finalStat, if_pos h]
  case kept =>
    rw [State.tick_running, Bool.not_eq_true'] at h
    rw [State.tick_finalStat, h]
    rfl
  case nop =>
    refine ⟨_, step_next_iff.2 ⟨hrun, rfl⟩, ?_⟩
    have hstop : stopsRun s.cfg.stopPolicy s.W = true := (stopsRun_iff _ _).2 (.inl hhalt)
    rw [nextPacket_with_nop hhalt]
    simp only [State.tick, nextX_with_nop hhalt hE hM, hstop]
    rfl
  case policy =>
    refine ⟨_, step_next_iff.2 ⟨hrun, rfl⟩, ?_⟩
    rw [nextPacket_with_policy]
    rfl

/-! ### Statuses -/

/-- Fetch reads no status. -/
theorem nextPacket_forgetStatus (s : State) : (forgetStatus s).nextPacket = s.nextPacket := rfl

/-- Under HALT_ONLY a tick reads no status but to stage one. -/
theorem forgetStatus_tick {s : State} (hpolicy : s.cfg.stopPolicy = .haltOnly) (f : Fetched) :
    forgetStatus (s.tick f) = forgetStatus ((forgetStatus s).tick f) := by
  have hstop : stopsRun s.cfg.stopPolicy (forgetStatus s).W = stopsRun s.cfg.stopPolicy s.W := by
    rw [hpolicy]
    rfl
  simp only [forgetStatus, State.tick] at hstop ⊢
  rw [hstop]
  rfl

/-- Settles O39: both states step to what their common state without statuses steps to. -/
theorem statusHasNoEffect : Obligations.StatusHasNoEffect := by
  intro s s' hrun hpolicy hforget
  have hrun' : s'.running = true := by
    change (forgetStatus s').running = true
    rw [← hforget]
    exact hrun
  have hpolicy' : s'.cfg.stopPolicy = .haltOnly := by
    change (forgetStatus s').cfg.stopPolicy = .haltOnly
    rw [← hforget]
    exact hpolicy
  refine ⟨_, _, step_next_iff.2 ⟨hrun, rfl⟩, step_next_iff.2 ⟨hrun', rfl⟩, ?_⟩
  rw [forgetStatus_tick hpolicy, forgetStatus_tick hpolicy', ← nextPacket_forgetStatus s,
    ← nextPacket_forgetStatus s', hforget]

end Sys2Proof.Proofs

/-! PROOFS. The way of an instruction from its fetch to Writeback (44_misc_and_moves.md): that it completes, the
instructions without an effect, the moves; and the bubbles after reset (70_reset_and_hazards.md R601). -/

namespace Sys2Proof.Proofs

open Sys2Proof Sys2Proof.Machine Sys2Proof.Claims

/-! ### Going on -/

/-- The run goes on through the four ticks that write back what is in flight, whatever they fetch. -/
theorem running_of_noStopAhead {s : State} (h : s.NoStopAhead) (f1 f2 f3 f4 : Fetched) :
    (s.tick f1).running = true ∧ ((s.tick f1).tick f2).running = true ∧
      (((s.tick f1).tick f2).tick f3).running = true ∧
      ((((s.tick f1).tick f2).tick f3).tick f4).running = true := by
  obtain ⟨hpolicy, hD, hE, hM, hW⟩ := h
  exact ⟨tick_running_of_haltOnly hpolicy hW, tick_running_of_haltOnly hpolicy hM,
    tick_running_of_haltOnly hpolicy hE, tick_running_of_haltOnly hpolicy hD⟩

/-- Settles O42: each of the five ticks starts from a running state. -/
theorem instructionCompletesInFiveTicks : Obligations.InstructionCompletesInFiveTicks := by
  intro i s hrun hstop
  let s1 := s.tick (packetOf i s)
  let s2 := s1.tick s1.nextPacket
  let s3 := s2.tick s2.nextPacket
  let s4 := s3.tick s3.nextPacket
  obtain ⟨hrun1, hrun2, hrun3, hrun4⟩ := running_of_noStopAhead hstop (packetOf i s) s1.nextPacket s2.nextPacket
    s3.nextPacket
  exact ⟨s1, s2, s3, s4, _, exec_next_iff.2 ⟨hrun, rfl⟩, step_next_iff.2 ⟨hrun1, rfl⟩,
    step_next_iff.2 ⟨hrun2, rfl⟩, step_next_iff.2 ⟨hrun3, rfl⟩, step_next_iff.2 ⟨hrun4, rfl⟩,
    hrun1, hrun2, hrun3, hrun4⟩

/-! ### Instructions without an effect -/

/-- From `s1`, with the instruction in D, every stage only carries its status and icode on, and `P` holds after its
Writeback tick. -/
def PassesWithoutEffect (stat : Stat) (icode : Icode) (f : Nibble) (Cnd : Bool) (P : State → Prop)
    (s1 : State) : Prop :=
  Next s1 fun s2 => s2.E = ⟨stat, icode, f, 0, 0, 0, none, none, none, none⟩ ∧
  Next s2 fun s3 => s3.cc = s2.cc ∧ s3.M = ⟨stat, icode, Cnd, 0, 0, none, none⟩ ∧
  Next s3 fun s4 => s4.mem = s3.mem ∧ s4.W = ⟨stat, icode, 0, 0, none, none⟩ ∧
  Next s4 fun s5 => s5.x = s4.x ∧ P s5

section
variable {s : State} (g : Fetched) {stat : Stat} {icode : Icode} {f : Nibble} {Cnd : Bool}

/-- The icodes of halt, nop and the non-instructions. -/
theorem effectless_cases (h : icode ∈ [Icode.halt, .nop, .codeC, .codeD, .codeE, .codeF]) :
    icode = .halt ∨ icode = .nop ∨ icode = .codeC ∨ icode = .codeD ∨ icode = .codeE ∨ icode = .codeF := by
  simpa using h

variable (hicode : icode ∈ [Icode.halt, .nop, .codeC, .codeD, .codeE, .codeF])
include hicode

/-- Decode resolves no operand and names no destination. -/
theorem tick_E_of_effectless {p : Word} (hD : s.D = ⟨stat, icode, f, none, none, 0, p⟩) :
    (s.tick g).E = ⟨stat, icode, f, 0, 0, 0, none, none, none, none⟩ := by
  rw [State.tick_E, hD]
  rcases effectless_cases hicode with rfl | rfl | rfl | rfl | rfl | rfl <;> rfl

/-- Execute sets no flag and gives 0; e_Cnd tells the non-instructions from halt and nop. -/
theorem tick_M_of_effectless (hE : s.E = ⟨stat, icode, f, 0, 0, 0, none, none, none, none⟩) :
    (s.tick g).cc = s.cc ∧
      (s.tick g).M = ⟨stat, icode, Reference.notInstruction icode, 0, 0, none, none⟩ := by
  rw [State.tick_cc, State.tick_M, hE]
  rcases effectless_cases hicode with rfl | rfl | rfl | rfl | rfl | rfl <;> exact ⟨rfl, rfl⟩

/-- Memory makes no access. -/
theorem tick_W_of_effectless (hM : s.M = ⟨stat, icode, Cnd, 0, 0, none, none⟩) :
    (s.tick g).mem = s.mem ∧ (s.tick g).W = ⟨stat, icode, 0, 0, none, none⟩ := by
  rw [State.tick_mem, State.tick_W, hM]
  rcases effectless_cases hicode with rfl | rfl | rfl | rfl | rfl | rfl <;> exact ⟨rfl, rfl⟩

omit hicode in
/-- Writeback has no register to write. -/
theorem tick_x_of_effectless (hW : s.W = ⟨stat, icode, 0, 0, none, none⟩) : (s.tick g).x = s.x := by
  rw [State.tick_x, hW, nextX_eq]
  exact ite_self _

/-- These instructions pass without an effect; what the Writeback tick decides is whether the run goes on. -/
theorem passesWithoutEffect {P : State → Prop} {p : Word} (hD : s.D = ⟨stat, icode, f, none, none, 0, p⟩)
    (hP : ∀ t g, t.cfg = s.cfg → t.W = ⟨stat, icode, 0, 0, none, none⟩ → P (State.tick t g)) :
    PassesWithoutEffect stat icode f (Reference.notInstruction icode) P s := by
  let s2 := s.tick s.nextPacket
  let s3 := s2.tick s2.nextPacket
  have hE := tick_E_of_effectless s.nextPacket hicode hD
  obtain ⟨hcc, hM⟩ := tick_M_of_effectless s2.nextPacket hicode hE
  obtain ⟨hmem, hW⟩ := tick_W_of_effectless s3.nextPacket hicode hM
  exact next_of_tick ⟨hE, next_of_tick ⟨hcc, hM, next_of_tick ⟨hmem, hW,
    next_of_tick ⟨tick_x_of_effectless _ hW, hP _ _ rfl hW⟩⟩⟩⟩

end

/-- Settles O43: a HALT in W meets every stop condition. -/
theorem haltStopsTheRun : Obligations.HaltStopsTheRun := by
  intro s f hrun
  refine ⟨_, exec_next_iff.2 ⟨hrun, rfl⟩, rfl, rfl, passesWithoutEffect (by decide) rfl fun t g _ hW => ?_⟩
  have hstop : stopsRun t.cfg.stopPolicy t.W = true := (stopsRun_iff _ _).2 (.inl (by rw [hW]))
  rw [State.tick_running, State.tick_finalStat, hstop, hW]
  exact ⟨rfl, rfl⟩

/-- Settles O44: a nop in W meets no stop condition. -/
theorem nopHasNoEffect : Obligations.NopHasNoEffect := by
  intro s f hrun
  refine ⟨_, exec_next_iff.2 ⟨hrun, rfl⟩, rfl, rfl, passesWithoutEffect (by decide) rfl fun t g _ hW => ?_⟩
  rw [State.tick_running, hW, stopsRun_of_aok rfl Icode.noConfusion]
  rfl

/-- Settles O45: a W with status INS, and without HALT, stops the run under ANY_NON_AOK only. -/
theorem nonInstructionDrainsWithoutEffect : Obligations.NonInstructionDrainsWithoutEffect := by
  intro s c f hrun hc
  have hicode := ofNibble_mem_of_nonInstruction hc
  have hins : Reference.notInstruction (.ofNibble c) = true := by simpa [Reference.notInstruction] using hicode
  have hhalt : Icode.ofNibble c ≠ .halt := fun h => by simp [h] at hicode
  have hway := passesWithoutEffect (s := s.tick (s.fetchF1 .ins (.ofNibble c) f)) (stat := .ins) (P := fun s5 =>
    (s.cfg.stopPolicy = .haltOnly → s5.running = true) ∧
      (s.cfg.stopPolicy = .anyNonAok → s5.running = false ∧ s5.finalStat = some .ins))
    (.tail _ (.tail _ hicode)) rfl fun t g hcfg hW => ?_
  · rw [hins] at hway
    exact ⟨_, exec_next_iff.2 ⟨hrun, rfl⟩, rfl, rfl, hway⟩
  · rw [State.tick_running, State.tick_finalStat, hcfg, hW]
    constructor
    · intro hpolicy
      simp [hpolicy, stopsRun, WReg.done, hhalt]
    · intro hpolicy
      simp [hpolicy, stopsRun]

/-! ### Moves -/

section
variable (rA rB : Nibble)

/-- Every row is fetched as an RRMOVQ of its ifun (R304 to R311). -/
theorem moves_packet (s : State) : ∀ p ∈ moves rA rB, packetOf p.1 s = s.fetchF2 .rrmovq p.2.1 rA rB := by
  simp [moves, packetOf]

/-- A row's condition is the one its ifun selects (R304 to R311, 42_execute.md R208). -/
theorem moves_condition (cc : CC) : ∀ p ∈ moves rA rB, condition p.2.1 cc = p.2.2 cc := by
  simp [moves, condition]

end

/-- What Execute stages for a move of `v` to `r`: the destination goes with the condition (R211). -/
theorem nextM_of_move (cc : CC) (f : Nibble) (c v vB : Word) (r q q' : RegId) :
    nextM ⟨.aok, .rrmovq, f, c, v, vB, r, none, q, q'⟩ cc =
      ⟨.aok, .rrmovq, condition f cc, v, v, if condition f cc = true then r else none, none⟩ := by
  have hvalE : eValE ⟨.aok, .rrmovq, f, c, v, vB, r, none, q, q'⟩ = v := by
    rw [eValE_of_ne_opq Icode.noConfusion]
    exact add_zero v
  unfold nextM
  rw [hvalE]
  cases h : condition f cc <;> simp [eDstE, eCndOf, h]

/-- Settles O46: the RRMOVQ of a row's ifun carries the operand through the stages, with or without a destination as
the row's condition says. -/
theorem movesWriteWhenConditionHolds : Obligations.MovesWriteWhenConditionHolds := by
  intro s rA rB p hp hrun
  let s1 := s.tick (s.fetchF2 .rrmovq p.2.1 rA rB)
  let s2 := s1.tick s1.nextPacket
  let s3 := s2.tick s2.nextPacket
  have hM : s3.M = ⟨.aok, .rrmovq, p.2.2 s2.cc, s1.operand (regOf s.cfg rA), s1.operand (regOf s.cfg rA),
      if p.2.2 s2.cc = true then regOf s.cfg rB else none, none⟩ := by
    rw [← moves_condition rA rB s2.cc p hp]
    exact nextM_of_move s2.cc _ _ _ _ _ _ _
  refine ⟨s1, exec_next_iff.2 ⟨hrun, by rw [moves_packet rA rB s p hp]⟩, rfl, rfl,
    next_of_tick ⟨rfl, next_of_tick ⟨rfl, hM, next_of_tick ⟨rfl, rfl, next_of_tick ⟨?running, ?x⟩⟩⟩⟩⟩
  case running => rw [State.tick_running, stopsRun_of_aok rfl Icode.noConfusion]; rfl
  case x =>
    rw [tick_tick_x_of_dstM_none _ _ Icode.noConfusion rfl, hM]
    cases p.2.2 s2.cc <;> rfl

/-- Settles O47: the ALU adds 0 to the constant, which Writeback writes to rB. -/
theorem irmovqWritesConstant : Obligations.IrmovqWritesConstant := by
  intro s f rA rB V hrun
  let s1 := s.tick (s.fetchF10 .irmovq f rA rB V)
  let s2 := s1.tick s1.nextPacket
  let s3 := s2.tick s2.nextPacket
  have hM : s3.M = ⟨.aok, .irmovq, true, V, 0, regOf s.cfg rB, none⟩ := by
    have hM0 : s3.M = ⟨.aok, .irmovq, true, V + 0, 0, regOf s.cfg rB, none⟩ := rfl
    rwa [add_zero] at hM0
  refine ⟨s1, exec_next_iff.2 ⟨hrun, rfl⟩, rfl, rfl,
    next_of_tick ⟨rfl, next_of_tick ⟨rfl, hM, next_of_tick ⟨rfl, ?W, next_of_tick ⟨?running, ?x⟩⟩⟩⟩⟩
  case W => rw [State.tick_W, hM]; rfl
  case running => rw [State.tick_running, stopsRun_of_aok rfl Icode.noConfusion]; rfl
  case x => rw [tick_tick_x_of_dstM_none _ _ Icode.noConfusion rfl, hM]

/-- Settles O48: Execute's sum of the base and the displacement is the address of the store in M. -/
theorem rmmovqStores : Obligations.RmmovqStores := by
  intro s f rA rB D hrun hmem
  let s1 := s.tick (s.fetchF10 .rmmovq f rA rB D)
  let s2 := s1.tick s1.nextPacket
  let s3 := s2.tick s2.nextPacket
  have hM : s3.M = ⟨.aok, .rmmovq, true, s1.operand (regOf s.cfg rB) + D, s1.operand (regOf s.cfg rA), none,
      none⟩ := by
    rw [BitVec.add_comm _ D]
    rfl
  have hmem3 : s3.mem.wf := tick_mem_wf _ (tick_mem_wf _ (tick_mem_wf _ hmem))
  have hacc : accessOf s3.M = .write (s1.operand (regOf s.cfg rB) + D) (s1.operand (regOf s.cfg rA)) := by
    rw [hM]
    rfl
  obtain ⟨hstored, hstat⟩ := tick_stores s3.nextPacket hmem3 rfl hacc
  exact ⟨s1, exec_next_iff.2 ⟨hrun, rfl⟩, rfl, rfl,
    next_of_tick ⟨rfl, next_of_tick ⟨rfl, hM, next_of_tick ⟨hstored, hstat, next_of_tick rfl⟩⟩⟩⟩

/-- Settles O49: Execute's sum of the base and the displacement is the address of the read in M, whose word Writeback
writes to rA. -/
theorem mrmovqLoads : Obligations.MrmovqLoads := by
  intro s f rA rB D hrun
  let s1 := s.tick (s.fetchF10 .mrmovq f rA rB D)
  let s2 := s1.tick s1.nextPacket
  let s3 := s2.tick s2.nextPacket
  have hM : s3.M = ⟨.aok, .mrmovq, true, s1.operand (regOf s.cfg rB) + D, 0, none, regOf s.cfg rA⟩ := by
    rw [BitVec.add_comm _ D]
    rfl
  have hacc : accessOf s3.M = .read (s1.operand (regOf s.cfg rB) + D) := by rw [hM]; rfl
  obtain ⟨hmem, hloaded, hstat⟩ := tick_loads s3.nextPacket rfl hacc
  exact ⟨s1, exec_next_iff.2 ⟨hrun, rfl⟩, rfl, rfl,
    next_of_tick ⟨rfl, next_of_tick ⟨rfl, hM, next_of_tick ⟨hmem, hloaded, hstat, next_of_tick rfl⟩⟩⟩⟩

/-! ### Bubbles -/

/-- Four ticks from an idle pipeline, whatever they fetch: what is in flight changes no flag in two ticks, no memory
in three and no register in four, and never stops the run. -/
theorem idle_ticks {s : State} (hidle : s.Idle) (f1 f2 f3 f4 : Fetched) :
    let s1 := s.tick f1
    let s2 := s1.tick f2
    let s3 := s2.tick f3
    let s4 := s3.tick f4
    (s1.running = true ∧ s2.running = true ∧ s3.running = true ∧ s4.running = true) ∧
      (s1.cc = s.cc ∧ s2.cc = s.cc) ∧ (s1.mem = s.mem ∧ s2.mem = s.mem ∧ s3.mem = s.mem) ∧
      s1.x = s.x ∧ s2.x = s.x ∧ s3.x = s.x ∧ s4.x = s.x := by
  obtain ⟨hD, hE, hM, hW⟩ := idle_iff.1 hidle
  simp [stopsRun_of_idle, nextCC_of_idle, nextMem_of_idle, nextX_of_idle, hD, hE, hM, hW]

/-- Settles O34: the pipeline is idle after reset. -/
theorem bubblesAfterResetChangeNothing : Obligations.BubblesAfterResetChangeNothing := by
  intro cfg rf cc m i1 i2 i3 i4
  let s := State.resetWith cfg rf cc m
  let s1 := s.tick (packetOf i1 s)
  let s2 := s1.tick (packetOf i2 s1)
  let s3 := s2.tick (packetOf i3 s2)
  let s4 := s3.tick (packetOf i4 s3)
  have hidle : s.Idle := ⟨⟨rfl, rfl⟩, ⟨rfl, rfl, rfl, rfl⟩, ⟨rfl, rfl, rfl, rfl⟩, ⟨rfl, rfl, rfl, rfl⟩⟩
  obtain ⟨⟨hrun1, hrun2, hrun3, hrun4⟩, ⟨hcc1, hcc2⟩, ⟨hmem1, hmem2, hmem3⟩, hx1, hx2, hx3, hx4⟩ :=
    idle_ticks hidle (packetOf i1 s) (packetOf i2 s1) (packetOf i3 s2) (packetOf i4 s3)
  exact ⟨rfl, s1, s2, s3, s4, exec_next_iff.2 ⟨rfl, rfl⟩, exec_next_iff.2 ⟨hrun1, rfl⟩,
    exec_next_iff.2 ⟨hrun2, rfl⟩, exec_next_iff.2 ⟨hrun3, rfl⟩, hcc1, hcc2, hmem1, hmem2, hmem3, hx1, hx2, hx3,
    hx4, hrun4⟩

end Sys2Proof.Proofs

/-! PROOFS. One more instruction in the pipeline against the pipeline without it (70_reset_and_hazards.md R606, R611,
R617, R619): when everything in flight has completed, the instruction's Execute, Memory and Writeback act on the
registers, flags and memory that the older instructions leave; and where no load-use hazard is, so does its Decode. -/

namespace Sys2Proof.Proofs

open Sys2Proof Sys2Proof.Machine Sys2Proof.Claims

/-! ### Completing what is in flight -/

/-- The registers, flags and memory after the Execute, Memory and Writeback of the instruction in E, when `a` holds
them before each. -/
def completed (cfg : Config) (E : EReg) (a : Arch) : Arch :=
  ⟨nextX (nextW cfg (nextM E a.cc) a.mem) a.x, nextCC E a.cc, nextMem cfg a.mem (accessOf (nextM E a.cc))⟩

/-- A lone instruction's way is its Decode from the register file, and then its completion. -/
theorem loneArch_eq_completed (cfg : Config) (D : DReg) (a : Arch) :
    loneArch cfg D a = completed cfg (loneE D a.x) a := rfl

/-- What the instructions in W, M and E leave for the one in D. -/
def leftForD (s : State) : Arch :=
  completed s.cfg s.E
    ⟨nextX (nextW s.cfg s.M s.mem) (nextX s.W s.x), s.cc, nextMem s.cfg s.mem (accessOf s.M)⟩

/-- What Decode stages in the coming tick. -/
def decodedE (s : State) : EReg := nextE s.D s.E s.M s.W s.cc s.x

/-- What everything in flight leaves. -/
def leftByAll (s : State) : Arch := completed s.cfg (decodedE s) (leftForD s)

/-- What everything in flight leaves is what is left for the instruction fetched. -/
theorem leftForD_tick (s : State) (f : Fetched) : leftForD (s.tick f) = leftByAll s := rfl

/-- Under HALT_ONLY nothing in W, M and E stops the run. -/
structure GoesOn (s : State) : Prop where
  policy : s.cfg.stopPolicy = .haltOnly
  E : s.E.icode ≠ .halt
  M : s.M.icode ≠ .halt
  W : s.W.icode ≠ .halt

theorem goesOn_of_noStopAhead {s : State} (h : s.NoStopAhead) : GoesOn s := by
  obtain ⟨hpolicy, -, hE, hM, hW⟩ := h
  exact ⟨hpolicy, hE, hM, hW⟩

theorem goesOn_tick_of_noStopAhead {s : State} (h : s.NoStopAhead) (f : Fetched) : GoesOn (s.tick f) := by
  obtain ⟨hpolicy, hD, hE, hM, -⟩ := h
  exact ⟨hpolicy, hD, hE, hM⟩

/-- Four nops let everything in flight complete: they have no effect of their own. -/
theorem feed_fourNops {s : State} (hrun : s.running = true) (hgo : GoesOn s) :
    ∃ t, feed fourNops s = .next t ∧ t.arch = leftByAll s ∧ t.cfg = s.cfg := by
  rw [fourNops, feed_cons_of_running hrun, feed_cons_of_running ?run1, feed_cons_of_running ?run2,
    feed_cons_of_running ?run3]
  case run1 => exact tick_running_of_haltOnly hgo.policy hgo.W
  case run2 => exact tick_running_of_haltOnly hgo.policy hgo.M
  case run3 => exact tick_running_of_haltOnly hgo.policy hgo.E
  refine ⟨_, rfl, ?_, rfl⟩
  simp [State.arch, nextCC_of_idle, nextMem_of_idle, leftByAll, leftForD, decodedE, completed]

/-- Fetching an instruction and letting everything in flight complete gives what the instruction's completion makes of
what completing everything in flight without it gives. -/
theorem feed_instruction_fourNops {s : State} (i : Instr) (hrun : s.running = true) (hstop : s.NoStopAhead) :
    ∃ t u, feed fourNops (s.tick (packetOf i s)) = .next t ∧ feed fourNops s = .next u ∧
      t.arch = completed s.cfg (decodedE (s.tick (packetOf i s))) u.arch ∧ u.arch = leftByAll s ∧
      t.cfg = s.cfg ∧ u.cfg = s.cfg := by
  obtain ⟨u, hu, huarch, hucfg⟩ := feed_fourNops hrun (goesOn_of_noStopAhead hstop)
  obtain ⟨t, ht, htarch, htcfg⟩ := feed_fourNops (running_of_noStopAhead hstop (packetOf i s) .addressError
    .addressError .addressError).1 (goesOn_tick_of_noStopAhead hstop (packetOf i s))
  exact ⟨t, u, ht, hu, by rw [htarch, leftByAll, leftForD_tick, huarch, State.tick_cfg], huarch, htcfg, hucfg⟩

/-! ### The frame of an instruction -/

section
variable {cfg : Config} {E : EReg} {a : Arch}

/-- An instruction completes without a change to a register that is none of its destinations. -/
theorem completed_x_other {n : Fin 16} (hE : E.dstE ≠ some n) (hM : E.dstM ≠ some n) :
    (completed cfg E a).x[n] = a.x[n] := by
  refine nextX_other a.x ?_ hM
  rcases eDstE_cases E a.cc with h | ⟨-, h⟩
  · rwa [nextW_dstE, nextM_dstE, h]
  · rw [nextW_dstE, nextM_dstE, h]
    simp

theorem completed_cc (h : E.icode ≠ .opq) : (completed cfg E a).cc = a.cc := nextCC_of_ne_opq a.cc h

/-- A write changes no byte outside its eight. -/
theorem get_putLong_outside {m : Memory} (hm : m.wf) {addr : Word} (v : Word) {b : Nat}
    (hb : b < addr.toNat ∨ addr.toNat + 8 ≤ b) : (putLong cfg m addr v).get b = m.get b := by
  obtain ⟨hin, hout⟩ := stored_putLong cfg addr v hm
  by_cases h : InRange8 cfg addr
  · exact (hin h).2 b hb
  · exact hout h b

end

/-- The memory that everything in flight leaves is canonical. -/
theorem leftByAll_mem_wf {s : State} (hm : s.mem.wf) : (leftByAll s).mem.wf :=
  nextMem_wf (nextMem_wf (nextMem_wf hm _) _) _

section
variable {i : Instr} (s : State)

/-- Only an operation is fetched with the icode OPQ. -/
theorem icode_ne_opq_of_not_isOperation (hi : i.wf = true) (hop : isOperation i = false) :
    (packetOf i s).icode ≠ .opq := by
  cases i with
  | addq | subq | andq | xorq | reservedOp47 | reservedOp8F => cases hop
  | nonInstruction => exact icode_ne_of_nonInstruction hi (by decide)
  | _ => exact Icode.noConfusion

/-- The destinations Decode gives an instruction are those its rule names (41_decode.md R172, R173). -/
theorem destinations_of_packetOf (hi : i.wf = true) {n : Fin 16} (hn : some n ∉ destinations s.cfg i) :
    dstEOf (packetOf i s).icode (packetOf i s).rB ≠ some n ∧
      dstMOf (packetOf i s).icode (packetOf i s).rA ≠ some n := by
  have hnone : (none : RegId) ≠ some n := (Option.some_ne_none n).symm
  cases i with
  | nonInstruction c f =>
    have hall : ∀ icode ∈ [Icode.codeC, .codeD, .codeE, .codeF],
        dstEOf icode none ≠ some n ∧ dstMOf icode none ≠ some n := by simp [dstEOf, dstMOf]
    exact hall _ (icode_of_nonInstruction hi)
  | halt | nop | rmmovq | jmp | jle | jl | je | jne | jge | jg | reservedJump7 | reservedJump8F =>
    exact ⟨hnone, hnone⟩
  | rrmovq | cmovle | cmovl | cmove | cmovne | cmovge | cmovg | reservedCmov7 | reservedCmov8F | irmovq
  | addq | subq | andq | xorq | reservedOp47 | reservedOp8F | call | ret | pushq =>
    exact ⟨fun h => hn (h ▸ .head _), hnone⟩
  | mrmovq => exact ⟨hnone, fun h => hn (h ▸ .head _)⟩
  | popq => exact ⟨fun h => hn (h ▸ .tail _ (.head _)), fun h => hn (h ▸ .head _)⟩

/-- An instruction that stores writes at its store address, in whatever tick it reaches M. -/
theorem accessOf_of_storeAddress {a : Word} (h : storeAddress (s.tick (packetOf i s)) i = some a) (cc : CC) :
    ∃ v, accessOf (nextM (decodedE (s.tick (packetOf i s))) cc) = .write a v := by
  cases i with
  | rmmovq f rA rB D =>
    cases h
    rw [BitVec.add_comm _ D]
    exact ⟨_, rfl⟩
  | call | pushq =>
    cases h
    rw [← neg8_add]
    exact ⟨_, rfl⟩
  | _ => cases h

/-- An instruction without a store address writes no memory. -/
theorem nextMem_of_no_storeAddress (hi : i.wf = true) (h : storeAddress (s.tick (packetOf i s)) i = none)
    (cc : CC) (cfg : Config) (m : Memory) :
    nextMem cfg m (accessOf (nextM (decodedE (s.tick (packetOf i s))) cc)) = m := by
  cases i with
  | rmmovq | call | pushq => cases h
  | nonInstruction c f =>
    rw [accessOf_eq_none]
    · rfl
    · have hc : Icode.ofNibble c ∈ [Icode.codeC, .codeD, .codeE, .codeF] := icode_of_nonInstruction hi
      exact List.mem_of_mem_drop (i := 6) hc
  | _ => rfl

end

/-- Settles O57: the two outcomes differ by the completion of the instruction, whose destinations, icode and access
are those its rule names. -/
theorem instructionFrame : Obligations.InstructionFrame := by
  intro i s hi hrun hstop hm
  obtain ⟨t, u, ht, hu, htarch, huarch, htcfg, hucfg⟩ := feed_instruction_fourNops i hrun hstop
  have hx : t.x = (completed s.cfg (decodedE (s.tick (packetOf i s))) u.arch).x := congrArg Arch.x htarch
  have hcc : t.cc = (completed s.cfg (decodedE (s.tick (packetOf i s))) u.arch).cc := congrArg Arch.cc htarch
  have hmem : t.mem = (completed s.cfg (decodedE (s.tick (packetOf i s))) u.arch).mem :=
    congrArg Arch.mem htarch
  have humem : u.mem.wf := by
    rw [← State.arch_mem, huarch]
    exact leftByAll_mem_wf hm
  refine ⟨_, t, u, exec_next_iff.2 ⟨hrun, rfl⟩, ht, hu, fun n hn => ?registers, fun hop => ?flags,
    fun a ha b hb => ?store, fun hnone b => ?noStore, htcfg, hucfg⟩
  case registers =>
    obtain ⟨hE, hM⟩ := destinations_of_packetOf s hi hn
    simp only [hx]
    exact completed_x_other hE hM
  case flags => rw [hcc]; exact completed_cc (icode_ne_opq_of_not_isOperation s hi hop)
  case store =>
    obtain ⟨v, hwrite⟩ := accessOf_of_storeAddress s ha u.cc
    rw [hmem, completed, State.arch_cc, hwrite]
    exact get_putLong_outside humem v hb
  case noStore => rw [hmem, completed, nextMem_of_no_storeAddress s hi hnone]; rfl

/-! ### No load-use hazard: Decode too sees what the older instructions leave -/

/-- A register after Writeback that is not the loaded one: valE if it is dstE, else as before. -/
theorem nextX_getElem {W : WReg} (x : RegFile) {n : Fin 16} (hhalt : W.icode ≠ .halt) (hM : W.dstM ≠ some n) :
    (nextX W x)[n] = if W.dstE = some n then W.valE else x[n] := by
  split
  next hE => exact nextX_dstE x hhalt hE hM
  next hE => exact nextX_other x hE hM

section
variable {s : State} (hgo : GoesOn s)
include hgo

/-- A register that no instruction in E, M or W loads is resolved to what they leave in it: forwarding takes the
youngest write, and Writeback the last. -/
theorem operand_eq_leftForD {n : Fin 16} (hE : s.E.dstM ≠ some n) (hM : s.M.dstM ≠ some n)
    (hW : s.W.dstM ≠ some n) : s.operand (some n) = (leftForD s).x[n] := by
  have hafterW := nextX_getElem s.x hgo.W hW
  have hafterM := nextX_getElem (W := nextW s.cfg s.M s.mem) (nextX s.W s.x) hgo.M hM
  have hafterE := nextX_getElem (W := nextW s.cfg (nextM s.E s.cc) (nextMem s.cfg s.mem (accessOf s.M)))
    (nextX (nextW s.cfg s.M s.mem) (nextX s.W s.x)) hgo.E hE
  rw [operand_some]
  exact (hafterE.trans (by rw [hafterM, hafterW]; rfl)).symm

/-- Without a load-use hazard on its sources, what Decode stages is what it would stage from the register file that
the older instructions leave. -/
theorem decodedE_eq_loneE
    (hsources : ∀ n : Fin 16, srcAOf s.D.icode s.D.rA = some n ∨ srcBOf s.D.icode s.D.rB = some n →
      s.E.dstM ≠ some n ∧ s.M.dstM ≠ some n ∧ s.W.dstM ≠ some n) :
    decodedE s = loneE s.D (leftForD s).x := by
  have hread : ∀ r : RegId, (∀ n, r = some n →
      srcAOf s.D.icode s.D.rA = some n ∨ srcBOf s.D.icode s.D.rB = some n) →
      s.operand r = readReg (leftForD s).x r := by
    intro r hr
    cases r with
    | none => rfl
    | some n =>
      obtain ⟨hE, hM, hW⟩ := hsources n (hr n rfl)
      exact operand_eq_leftForD hgo hE hM hW
  have hA := hread (srcAOf s.D.icode s.D.rA) fun n h => .inl h
  have hB := hread (srcBOf s.D.icode s.D.rB) fun n h => .inr h
  unfold State.operand at hA hB
  simp only [decodedE, nextE, dValA, dValB, hA, hB]
  rfl

end

/-- The sources Decode gives an instruction are those its rule names (41_decode.md R170, R171). -/
theorem sources_of_packetOf {i : Instr} (hi : i.wf = true) (s : State) {n : Fin 16}
    (h : srcAOf (packetOf i s).icode (packetOf i s).rA = some n ∨
      srcBOf (packetOf i s).icode (packetOf i s).rB = some n) : some n ∈ sourcesOf s.cfg i := by
  have hnone : (none : RegId) ≠ some n := (Option.some_ne_none n).symm
  cases i with
  | nonInstruction c f =>
    have hall : ∀ icode ∈ [Icode.codeC, .codeD, .codeE, .codeF],
        ¬(srcAOf icode none = some n ∨ srcBOf icode none = some n) := by simp [srcAOf, srcBOf]
    exact absurd h (hall _ (icode_of_nonInstruction hi))
  | halt | nop | irmovq | jmp | jle | jl | je | jne | jge | jg | reservedJump7 | reservedJump8F =>
    exact absurd h (not_or.2 ⟨hnone, hnone⟩)
  | rrmovq | cmovle | cmovl | cmove | cmovne | cmovge | cmovg | reservedCmov7 | reservedCmov8F =>
    exact h.elim (fun hA => hA ▸ .head _) fun hB => absurd hB hnone
  | rmmovq | addq | subq | andq | xorq | reservedOp47 | reservedOp8F | pushq =>
    exact h.elim (fun hA => hA ▸ .head _) fun hB => hB ▸ .tail _ (.head _)
  | mrmovq | call => exact h.elim (fun hA => absurd hA hnone) fun hB => hB ▸ .head _
  | ret | popq => exact h.elim (fun hA => hA ▸ .head _) fun hB => hB ▸ .head _

/-- Settles O59: without a load-use hazard the instruction's completion is its lone way from what the others leave,
which is its Effect line. -/
theorem pipelineIsSequentialWithoutLoadUse : Obligations.PipelineIsSequentialWithoutLoadUse := by
  intro i s hi hrun hstop hhazard
  obtain ⟨t, u, ht, hu, htarch, huarch, -, -⟩ := feed_instruction_fourNops i hrun hstop
  refine ⟨t, u, by rw [feed_cons_of_running hrun, ht], hu, ?_⟩
  have hdecoded : decodedE (s.tick (packetOf i s)) = loneE (packetOf i s).toD u.x := by
    rw [decodedE_eq_loneE (goesOn_tick_of_noStopAhead hstop (packetOf i s)) fun n hn => ?_, leftForD_tick,
      ← huarch]
    · rfl
    · have hsource := sources_of_packetOf hi s hn
      have hloads : some n ∉ s.loadsInFlight := fun h => hhazard ⟨n, hsource, h⟩
      simpa [State.loadsInFlight, @eq_comm RegId (some n)] using hloads
  obtain ⟨harch, -⟩ := packetOf_hasEffect hi s u.arch
  rw [htarch, hdecoded, ← harch, loneArch_eq_completed]
  rfl

end Sys2Proof.Proofs

/-! PROOFS. Where a lone instruction's successor is fetched (40_fetch.md R140, R148): at the predicted address, at the
fallthrough a mispredicted jump carries in M, or at the word a return has loaded in W. -/

namespace Sys2Proof.Proofs

open Sys2Proof Sys2Proof.Machine Sys2Proof.Claims

/-! ### The three stages that can give the next address -/

section
variable {i : Instr} (s : State) (a : Arch)

variable {s a} in
/-- A jump whose condition is true goes to its constant. -/
theorem jumpEffect_next_of_true {f : Nibble} {Dest : Word}
    (h : (loneM (s.fetchF9 .jxx f Dest).toD a).Cnd = true) (pc : Word) :
    (jumpEffect f Dest pc a).next = Dest := if_pos h

variable {s a} in
/-- A jump whose condition is false goes to its fallthrough. -/
theorem jumpEffect_next_of_false {f : Nibble} {Dest : Word}
    (h : (loneM (s.fetchF9 .jxx f Dest).toD a).Cnd = false) (pc : Word) :
    (jumpEffect f Dest pc a).next = pc + 9 := if_neg (ne_true_of_eq_false h)

/-- The word a return loads is its Effect line's next address. -/
theorem loneW_valM_of_ret (hi : i.wf = true) (hret : (packetOf i s).icode = .ret) :
    (loneW s.cfg (packetOf i s).toD a).valM = (effect s.cfg s.fetchPC i a).next := by
  cases i with
  | ret => rfl
  | nonInstruction => exact absurd hret (icode_ne_of_nonInstruction hi (by decide))
  | _ => exact absurd hret Icode.noConfusion

/-- The fallthrough a jump carries in M is its Effect line's next address when its condition is false. -/
theorem loneM_valA_of_jxx (hi : i.wf = true) (hjxx : (packetOf i s).icode = .jxx)
    (hcnd : (loneM (packetOf i s).toD a).Cnd = false) :
    (loneM (packetOf i s).toD a).valA = (effect s.cfg s.fetchPC i a).next := by
  cases i with
  | jmp | jle | jl | je | jne | jge | jg => exact (jumpEffect_next_of_false hcnd _).symm
  | reservedJump7 | reservedJump8F => rfl
  | nonInstruction => exact absurd hjxx (icode_ne_of_nonInstruction hi (by decide))
  | _ => exact absurd hjxx Icode.noConfusion

/-- The prediction of any other instruction, and of a jump whose condition is true, is its Effect line's next
address. -/
theorem packetOf_predPC_eq_next (hi : i.wf = true) (hret : (packetOf i s).icode ≠ .ret)
    (hcnd : (packetOf i s).icode = .jxx → (loneM (packetOf i s).toD a).Cnd = true) :
    (packetOf i s).predPC = (effect s.cfg s.fetchPC i a).next := by
  cases i with
  | jmp | jle | jl | je | jne | jge | jg => exact (jumpEffect_next_of_true (hcnd rfl) _).symm
  | reservedJump7 => exact absurd (hcnd rfl) Bool.noConfusion
  | reservedJump8F f =>
    have hf : 8 ≤ f.toNat := by simpa [Instr.wf] using hi
    have hfalse : condition f a.cc = false := condition_reserved (by omega) a.cc
    exact absurd (hfalse.symm.trans (hcnd rfl)) Bool.noConfusion
  | ret => exact absurd rfl hret
  | _ => rfl

end

/-! ### The ticks of a lone instruction -/

/-- Two nops after its fetch, an instruction fetched into an idle pipeline is alone in M, and the next tick takes it
into W. -/
theorem feed_lone_in_M {s : State} (i : Instr) (hidle : s.Idle) :
    ∃ t, feed [.nop 0, .nop 0] (s.tick (packetOf i s)) = .next t ∧ t.running = true ∧ IdleE t.E ∧
      t.M = loneM (packetOf i s).toD s.arch ∧ ∀ g, (t.tick g).W = loneW s.cfg (packetOf i s).toD s.arch := by
  obtain ⟨hD, hE, hM, hW⟩ := idle_iff.1 hidle
  rw [feed_cons_of_running ?run1, feed_cons_of_running ?run2]
  case run1 => simp [stopsRun_of_idle, hW]
  case run2 => simp [stopsRun_of_idle, hM]
  refine ⟨_, rfl, ?running, ?idleE, ?M, fun g => ?W⟩
  case running => simp [stopsRun_of_idle, hE]
  case idleE => simp
  case M | W =>
    simp [loneM, loneW, hD, hE, hM, hW, nextX_of_idle, nextMem_of_idle, nextCC_of_idle, nextE_of_idle]

/-- Settles O58: the redirects of the PC selection, and the prediction where there is none, give the Effect line's next
address. -/
theorem loneInstructionResolvesNextAddress : Obligations.LoneInstructionResolvesNextAddress := by
  intro i s hi hrun hidle
  obtain ⟨s3, hs3, hrun3, hE3, hM3, hW4⟩ := feed_lone_in_M i hidle
  let s1 := s.tick (packetOf i s)
  let s4 := s3.tick (packetOf (.nop 0) s3)
  obtain ⟨-, ⟨-, hEnop, -⟩, ⟨-, hMnop, -⟩, -⟩ := idle_iff.1 hidle
  obtain ⟨-, hE3nop, -⟩ := hE3
  have hM1 : s1.M.icode = .nop := hEnop
  have hW1 : s1.W.icode = .nop := hMnop
  have hM4 : s4.M.icode = .nop := hE3nop
  refine ⟨s1, s3, s4, feed_cons_of_running hrun i [], hs3, exec_next_iff.2 ⟨hrun3, rfl⟩, fun hret => ?ret,
    fun hjxx hcnd => ?corrected, fun hret hcnd => ?predicted⟩
  case ret =>
    have hWret : s4.W.icode = .ret := by rw [hW4]; exact hret
    rw [fetchPC_of_return (by simp [hM4]) hWret, hW4]
    exact loneW_valM_of_ret s s.arch hi hret
  case corrected =>
    have hMjxx : s3.M.icode = .jxx := by rw [hM3]; exact hjxx
    rw [fetchPC_of_mispredicted hMjxx hcnd, hM3]
    exact loneM_valA_of_jxx s s.arch hi hjxx (hM3 ▸ hcnd)
  case predicted =>
    rw [fetchPC_of_no_redirect (by simp [hM1]) (by simp [hW1])]
    exact packetOf_predPC_eq_next s s.arch hi hret (hM3 ▸ hcnd)

end Sys2Proof.Proofs
